-- ==== Sys2Proof/Word.lean ====
section
/-! DEFINITION. The words of the CHIP-8 core: bytes, 16-bit words and register numbers. -/

namespace Sys2Proof

/-- A memory byte, a general register or a timer (R20, R28, R50): 8 bits. -/
abbrev Byte := BitVec 8

/-- The width of the index register, the program counter, a stack slot and an instruction word
(R23, R25, R27, R70): 16 bits. -/
abbrev Word := BitVec 16

/-- A 12-bit address operand `nnn` (R71, R73). -/
abbrev Addr12 := BitVec 12

/-- The number of a general register V0 to VF (R20), also the value of the operand fields `x` and `y` (R73). -/
abbrev Reg := Fin 16

/-- The flag register VF is register 0xF (R6, R13). -/
def Reg.flag : Reg := 15

/-- V0, the register that jump-relative reads implicitly (R20, R131). -/
def Reg.zero : Reg := 0

end Sys2Proof
end

