-- ==== Sys2Proof/Config.lean ====
section
/-! DEFINITION. What is fixed for the machine (R6) and the parameters a model must not fix (R7). -/

namespace Sys2Proof.Config

/-- Memory is 4096 bytes, addresses 0x000 to 0xFFF (R6, R50). -/
def memorySize : Nat := 4096

/-- The highest address an instruction can be fetched from: PC + 1 must not pass 0xFFF (R56, R103). -/
def lastFetchAddress : Nat := 0xFFE

/-- Programs are loaded, and execution starts after reset, at 0x200 (R6, R36, R57). -/
def programBase : Nat := 0x200

/-- The longest program image, 3584 bytes (R6, R272). -/
def maxProgramLength : Nat := 3584

/-- The font image is 80 bytes at address 0: 16 glyphs of 5 bytes (R6, R57, R67). -/
def fontSize : Nat := 80

/-- Each glyph is 5 bytes (R67, R172). -/
def glyphSize : Nat := 5

/-- The display is 64 columns wide (R6, R29). -/
def displayWidth : Nat := 64

/-- The display is 32 rows high (R6, R29). -/
def displayHeight : Nat := 32

/-- FREE VALUE, the open parameter `RandomByte` (R7, R33, R151; log entry 1). The draw number `k` of the machine
is `randomByte k`; it has no body, so nothing can be proved of a draw but that it is some byte.
Each execution of random-and takes the next draw number from the counter `State.draws`. -/
opaque randomByte : Nat → Byte

/-- FREE VALUE, the open parameter `FONT` (R7, R67; log entry 2). `fontByte a` is the font byte at address `a`.
Only the bytes at addresses 5 to 79 are taken from it: the source fixes glyph 0 (addresses 0 to 4), which
`glyphZero` holds. It has no body. -/
opaque fontByte : Nat → Byte

/-- Glyph 0, the one glyph the source fixes (R7, R67). -/
def glyphZero : List Byte := [0xF0, 0x90, 0x90, 0x90, 0xF0]

/-- The default font table of R67. Only its first five bytes are the source's; the other 75 are the spec's
general knowledge (D11, G3), so no definition of the machine uses this table. A claim that wants it takes
`fontIsDefault` as a premise and says so. -/
def defaultFont : List Byte :=
  glyphZero ++
  [0x20, 0x60, 0x20, 0x20, 0x70] ++ [0xF0, 0x10, 0xF0, 0x80, 0xF0] ++ [0xF0, 0x10, 0xF0, 0x10, 0xF0] ++
  [0x90, 0x90, 0xF0, 0x10, 0x10] ++ [0xF0, 0x80, 0xF0, 0x10, 0xF0] ++ [0xF0, 0x80, 0xF0, 0x90, 0xF0] ++
  [0xF0, 0x10, 0x20, 0x40, 0x40] ++ [0xF0, 0x90, 0xF0, 0x90, 0xF0] ++ [0xF0, 0x90, 0xF0, 0x10, 0xF0] ++
  [0xF0, 0x90, 0xF0, 0x90, 0x90] ++ [0xE0, 0x90, 0xE0, 0x90, 0xE0] ++ [0xF0, 0x80, 0x80, 0x80, 0xF0] ++
  [0xE0, 0x90, 0x90, 0x90, 0xE0] ++ [0xF0, 0x80, 0xF0, 0x80, 0xF0] ++ [0xF0, 0x80, 0xF0, 0x80, 0x80]

/-- The premise that the machine's `FONT` is the default table of R67. -/
def fontIsDefault : Prop :=
  ∀ a, glyphSize ≤ a → a < fontSize → fontByte a = defaultFont.getD a 0

end Sys2Proof.Config
end

