-- ==== Sys2Proof/Syntax.lean ====
section
/-! DEFINITION. The instructions of the opcode map (R76), one constructor per row of spec/opcode_table.json, in the
table's order. -/

namespace Sys2Proof

/-- An instruction with its operands (R73, R74). The operand types are exactly the field widths of R71: `x` and `y` are
register numbers 0 to 15, `kk` is 8 bits, `nnn` is 12 bits and `n` is a row count 0 to 15, so every term is an
instruction (WellFormed.lean). Shift-right and shift-left keep the `y` field, which is decoded but not used (R77). -/
inductive Instr where
  /-- `00E0` CLS: clear display (R190). -/
  | cls
  /-- `00EE` RET: return (R120). -/
  | ret
  /-- `1nnn` JP: jump (R121). -/
  | jp (nnn : Addr12)
  /-- `2nnn` CALL: call (R122). -/
  | call (nnn : Addr12)
  /-- `3xkk` SE_IMM: skip if equal, immediate (R123). -/
  | seImm (x : Reg) (kk : Byte)
  /-- `4xkk` SNE_IMM: skip if not equal, immediate (R124). -/
  | sneImm (x : Reg) (kk : Byte)
  /-- `5xy0` SE_REG: skip if equal, register (R125). -/
  | seReg (x y : Reg)
  /-- `6xkk` LD_IMM: set immediate (R140). -/
  | ldImm (x : Reg) (kk : Byte)
  /-- `7xkk` ADD_IMM: add immediate (R141). -/
  | addImm (x : Reg) (kk : Byte)
  /-- `8xy0` LD_REG: set register (R142). -/
  | ldReg (x y : Reg)
  /-- `8xy1` OR (R143). -/
  | orReg (x y : Reg)
  /-- `8xy2` AND (R144). -/
  | andReg (x y : Reg)
  /-- `8xy3` XOR (R145). -/
  | xorReg (x y : Reg)
  /-- `8xy4` ADD_REG: add register, with carry (R146). -/
  | addReg (x y : Reg)
  /-- `8xy5` SUB: subtract Vx - Vy (R147). -/
  | sub (x y : Reg)
  /-- `8xy6` SHR: shift right (R148). -/
  | shr (x y : Reg)
  /-- `8xy7` SUBN: subtract Vy - Vx (R149). -/
  | subn (x y : Reg)
  /-- `8xyE` SHL: shift left (R150). -/
  | shl (x y : Reg)
  /-- `9xy0` SNE_REG: skip if not equal, register (R126). -/
  | sneReg (x y : Reg)
  /-- `Annn` LD_I: set index (R170). -/
  | ldI (nnn : Addr12)
  /-- `Bnnn` JP_V0: jump relative (R131). -/
  | jpV0 (nnn : Addr12)
  /-- `Cxkk` RND: random and (R151). -/
  | rnd (x : Reg) (kk : Byte)
  /-- `Dxyn` DRW: draw sprite (R191). -/
  | drw (x y : Reg) (n : Fin 16)
  /-- `Ex9E` SKP: skip if key pressed (R210). -/
  | skp (x : Reg)
  /-- `ExA1` SKNP: skip if key not pressed (R211). -/
  | sknp (x : Reg)
  /-- `Fx07` LD_V_DT: read delay timer (R213). -/
  | ldVDt (x : Reg)
  /-- `Fx0A` LD_V_K: await key (R216). -/
  | ldVK (x : Reg)
  /-- `Fx15` LD_DT_V: set delay timer (R217). -/
  | ldDtV (x : Reg)
  /-- `Fx18` LD_ST_V: set sound timer (R218). -/
  | ldStV (x : Reg)
  /-- `Fx1E` ADD_I: add index (R171). -/
  | addI (x : Reg)
  /-- `Fx29` LD_F: set index to font glyph (R172). -/
  | ldF (x : Reg)
  /-- `Fx33` LD_B: store BCD (R176). -/
  | ldB (x : Reg)
  /-- `Fx55` LD_MEM_V: write memory block (R177). -/
  | ldMemV (x : Reg)
  /-- `Fx65` LD_V_MEM: read memory block (R178). -/
  | ldVMem (x : Reg)
  deriving DecidableEq, Repr

end Sys2Proof
end

