-- ==== Sys2Proof/WellFormed.lean ====
section
/-! DEFINITION. The opcode map of R76 as data, and which words are well formed: exactly those that match a row. There is
no ill-formed instruction TERM: every operand's range is carried by its type (R73), and R91 says there is no reserved or
undefined form. What can be ill formed is a WORD (R72, R90), and `wordWellFormed` is that check. It is written from the
match and mask columns of R76, independently of the decoder of R93 (Decode.lean). -/

namespace Sys2Proof

/-- One row of the opcode map (R76): the mnemonic of spec/opcode_table.json and the match and mask columns. -/
structure OpcodeRow where
  mnemonic : String
  pattern : Word
  mask : Word
  deriving DecidableEq, Repr

/-- The row a word belongs to is the one with `(w AND mask) = match` (R76). -/
def OpcodeRow.covers (r : OpcodeRow) (w : Word) : Bool := w &&& r.mask == r.pattern

/-- The row of an instruction's constructor (R76). -/
def Instr.row : Instr → OpcodeRow
  | .cls => { mnemonic := "CLS", pattern := 0x00E0, mask := 0xFFFF }
  | .ret => { mnemonic := "RET", pattern := 0x00EE, mask := 0xFFFF }
  | .jp _ => { mnemonic := "JP", pattern := 0x1000, mask := 0xF000 }
  | .call _ => { mnemonic := "CALL", pattern := 0x2000, mask := 0xF000 }
  | .seImm _ _ => { mnemonic := "SE_IMM", pattern := 0x3000, mask := 0xF000 }
  | .sneImm _ _ => { mnemonic := "SNE_IMM", pattern := 0x4000, mask := 0xF000 }
  | .seReg _ _ => { mnemonic := "SE_REG", pattern := 0x5000, mask := 0xF00F }
  | .ldImm _ _ => { mnemonic := "LD_IMM", pattern := 0x6000, mask := 0xF000 }
  | .addImm _ _ => { mnemonic := "ADD_IMM", pattern := 0x7000, mask := 0xF000 }
  | .ldReg _ _ => { mnemonic := "LD_REG", pattern := 0x8000, mask := 0xF00F }
  | .orReg _ _ => { mnemonic := "OR", pattern := 0x8001, mask := 0xF00F }
  | .andReg _ _ => { mnemonic := "AND", pattern := 0x8002, mask := 0xF00F }
  | .xorReg _ _ => { mnemonic := "XOR", pattern := 0x8003, mask := 0xF00F }
  | .addReg _ _ => { mnemonic := "ADD_REG", pattern := 0x8004, mask := 0xF00F }
  | .sub _ _ => { mnemonic := "SUB", pattern := 0x8005, mask := 0xF00F }
  | .shr _ _ => { mnemonic := "SHR", pattern := 0x8006, mask := 0xF00F }
  | .subn _ _ => { mnemonic := "SUBN", pattern := 0x8007, mask := 0xF00F }
  | .shl _ _ => { mnemonic := "SHL", pattern := 0x800E, mask := 0xF00F }
  | .sneReg _ _ => { mnemonic := "SNE_REG", pattern := 0x9000, mask := 0xF00F }
  | .ldI _ => { mnemonic := "LD_I", pattern := 0xA000, mask := 0xF000 }
  | .jpV0 _ => { mnemonic := "JP_V0", pattern := 0xB000, mask := 0xF000 }
  | .rnd _ _ => { mnemonic := "RND", pattern := 0xC000, mask := 0xF000 }
  | .drw _ _ _ => { mnemonic := "DRW", pattern := 0xD000, mask := 0xF000 }
  | .skp _ => { mnemonic := "SKP", pattern := 0xE09E, mask := 0xF0FF }
  | .sknp _ => { mnemonic := "SKNP", pattern := 0xE0A1, mask := 0xF0FF }
  | .ldVDt _ => { mnemonic := "LD_V_DT", pattern := 0xF007, mask := 0xF0FF }
  | .ldVK _ => { mnemonic := "LD_V_K", pattern := 0xF00A, mask := 0xF0FF }
  | .ldDtV _ => { mnemonic := "LD_DT_V", pattern := 0xF015, mask := 0xF0FF }
  | .ldStV _ => { mnemonic := "LD_ST_V", pattern := 0xF018, mask := 0xF0FF }
  | .addI _ => { mnemonic := "ADD_I", pattern := 0xF01E, mask := 0xF0FF }
  | .ldF _ => { mnemonic := "LD_F", pattern := 0xF029, mask := 0xF0FF }
  | .ldB _ => { mnemonic := "LD_B", pattern := 0xF033, mask := 0xF0FF }
  | .ldMemV _ => { mnemonic := "LD_MEM_V", pattern := 0xF055, mask := 0xF0FF }
  | .ldVMem _ => { mnemonic := "LD_V_MEM", pattern := 0xF065, mask := 0xF0FF }

/-- One instruction of each constructor, in the order of R76, to list the rows with. -/
def Instr.samples : List Instr :=
  [.cls, .ret, .jp 0, .call 0, .seImm 0 0, .sneImm 0 0, .seReg 0 0, .ldImm 0 0, .addImm 0 0] ++
  [.ldReg 0 0, .orReg 0 0, .andReg 0 0, .xorReg 0 0, .addReg 0 0, .sub 0 0, .shr 0 0, .subn 0 0, .shl 0 0] ++
  [.sneReg 0 0, .ldI 0, .jpV0 0, .rnd 0 0, .drw 0 0 0, .skp 0, .sknp 0] ++
  [.ldVDt 0, .ldVK 0, .ldDtV 0, .ldStV 0, .addI 0, .ldF 0, .ldB 0, .ldMemV 0, .ldVMem 0]

/-- The opcode map, 34 rows in the order of R76. -/
def opcodeMap : List OpcodeRow := Instr.samples.map Instr.row

/-- A word is well formed when it matches a row of the opcode map; every other word is an unrecognized word (R72, R90). -/
def wordWellFormed (w : Word) : Bool := opcodeMap.any fun r => r.covers w

end Sys2Proof
end

