-- ==== Sys2Proof/Decode.lean ====
section
/-! DEFINITION. The decoder of R93, total on any word and any bytes, and after it the encoder written from the encodings
of R76. The bit patterns other than that of set-index are the spec's general knowledge (R75, D2; log entry 10). -/

namespace Sys2Proof

/-- What decoding a word gives (R93): an instruction, or `unknown w`, an unrecognized word (R90), named by the word
itself, which the fault records. -/
inductive Decoded where
  | instruction (i : Instr)
  | unknown (w : Word)
  deriving DecidableEq, Repr

/-- What decoding bytes gives: what their first word gives, or `truncated`, when there are fewer than the two bytes
of an instruction (R70). A fetch always has two. -/
inductive DecodedBytes where
  | word (d : Decoded)
  | truncated
  deriving DecidableEq, Repr

/-- The top nibble `w[15:12]` (R71). -/
def opField (w : Word) : BitVec 4 := w.extractLsb' 12 4

/-- The field `x`, `w[11:8]`, a register number (R71, R73). -/
def xField (w : Word) : Reg := (w.extractLsb' 8 4).toFin

/-- The field `y`, `w[7:4]`, a register number (R71, R73). -/
def yField (w : Word) : Reg := (w.extractLsb' 4 4).toFin

/-- The field `n`, `w[3:0]`, as a row count (R71, R73). -/
def nField (w : Word) : Fin 16 := (w.extractLsb' 0 4).toFin

/-- The field `kk`, `w[7:0]` (R71). -/
def kkField (w : Word) : Byte := w.extractLsb' 0 8

/-- The field `nnn`, `w[11:0]` (R71). -/
def nnnField (w : Word) : Addr12 := w.extractLsb' 0 12

/-- Top nibble 8: the low nibble selects the operation (R74, R93). -/
def decodeArithmetic (w : Word) : Decoded :=
  let x := xField w
  let y := yField w
  match w.extractLsb' 0 4 with
  | 0x0#4 => .instruction (.ldReg x y)
  | 0x1#4 => .instruction (.orReg x y)
  | 0x2#4 => .instruction (.andReg x y)
  | 0x3#4 => .instruction (.xorReg x y)
  | 0x4#4 => .instruction (.addReg x y)
  | 0x5#4 => .instruction (.sub x y)
  | 0x6#4 => .instruction (.shr x y)
  | 0x7#4 => .instruction (.subn x y)
  | 0xE#4 => .instruction (.shl x y)
  | _ => .unknown w

/-- Top nibble E: the low byte selects the key instruction (R74, R93). -/
def decodeKey (w : Word) : Decoded :=
  match kkField w with
  | 0x9E#8 => .instruction (.skp (xField w))
  | 0xA1#8 => .instruction (.sknp (xField w))
  | _ => .unknown w

/-- Top nibble F: the low byte selects the operation (R74, R93). -/
def decodeMisc (w : Word) : Decoded :=
  let x := xField w
  match kkField w with
  | 0x07#8 => .instruction (.ldVDt x)
  | 0x0A#8 => .instruction (.ldVK x)
  | 0x15#8 => .instruction (.ldDtV x)
  | 0x18#8 => .instruction (.ldStV x)
  | 0x1E#8 => .instruction (.addI x)
  | 0x29#8 => .instruction (.ldF x)
  | 0x33#8 => .instruction (.ldB x)
  | 0x55#8 => .instruction (.ldMemV x)
  | 0x65#8 => .instruction (.ldVMem x)
  | _ => .unknown w

/-- The decoder of R93. It reads nothing but the word. -/
def decode (w : Word) : Decoded :=
  match opField w with
  | 0x0#4 =>
    if w = 0x00E0 then .instruction .cls
    else if w = 0x00EE then .instruction .ret
    else .unknown w
  | 0x1#4 => .instruction (.jp (nnnField w))
  | 0x2#4 => .instruction (.call (nnnField w))
  | 0x3#4 => .instruction (.seImm (xField w) (kkField w))
  | 0x4#4 => .instruction (.sneImm (xField w) (kkField w))
  | 0x5#4 => if nField w = 0 then .instruction (.seReg (xField w) (yField w)) else .unknown w
  | 0x6#4 => .instruction (.ldImm (xField w) (kkField w))
  | 0x7#4 => .instruction (.addImm (xField w) (kkField w))
  | 0x8#4 => decodeArithmetic w
  | 0x9#4 => if nField w = 0 then .instruction (.sneReg (xField w) (yField w)) else .unknown w
  | 0xA#4 => .instruction (.ldI (nnnField w))
  | 0xB#4 => .instruction (.jpV0 (nnnField w))
  | 0xC#4 => .instruction (.rnd (xField w) (kkField w))
  | 0xD#4 => .instruction (.drw (xField w) (yField w) (nField w))
  | 0xE#4 => decodeKey w
  | _ => decodeMisc w

/-- The big-endian word of two bytes: the first byte is bits 15 to 8 (R53). -/
def wordOfBytes (hi lo : Byte) : Word := hi ++ lo

/-- The two bytes of a word as memory holds them, the high byte at the lower address (R53). -/
def bytesOfWord (w : Word) : List Byte := [w.extractLsb' 8 8, w.extractLsb' 0 8]

/-- The decoder on bytes: the instruction that the first two bytes hold (R53, R70). -/
def decodeBytes : List Byte → DecodedBytes
  | hi :: lo :: _ => .word (decode (wordOfBytes hi lo))
  | _ => .truncated

/-- The bytes of a table word of `nbits` bits whose bits are `w` (bit 0 the least significant bit of the
word); the bits above `nbits` are 0. -/
def tableBytes (nbits w : Nat) : List Byte := bytesOfWord (BitVec.ofNat 16 (w % 2 ^ nbits))

/-- The instruction the decoder reads from a table word, none where it refuses. -/
def decodeTableWord (nbits w : Nat) : Option Instr :=
  match decodeBytes (tableBytes nbits w) with
  | .word (.instruction i) => some i
  | .word (.unknown _) => none
  | .truncated => none

/-- Format NNN of R74: the top nibble and a 12-bit address. -/
def encodeNnn (op : BitVec 4) (nnn : Addr12) : Word := op ++ nnn

/-- Format XKK of R74: the top nibble, `x` and `kk`. Format X is the same with the low byte fixed. -/
def encodeXkk (op : BitVec 4) (x : Reg) (kk : Byte) : Word := op ++ (BitVec.ofFin x : BitVec 4) ++ kk

/-- Formats XYN and XY of R74: the top nibble, `x`, `y` and the low nibble. -/
def encodeXyn (op : BitVec 4) (x y : Reg) (n : Fin 16) : Word :=
  op ++ (BitVec.ofFin x : BitVec 4) ++ (BitVec.ofFin y : BitVec 4) ++ (BitVec.ofFin n : BitVec 4)

/-- The word of an instruction, from the pattern column of R76. -/
def encode : Instr → Word
  | .cls => 0x00E0
  | .ret => 0x00EE
  | .jp nnn => encodeNnn 0x1 nnn
  | .call nnn => encodeNnn 0x2 nnn
  | .seImm x kk => encodeXkk 0x3 x kk
  | .sneImm x kk => encodeXkk 0x4 x kk
  | .seReg x y => encodeXyn 0x5 x y 0x0
  | .ldImm x kk => encodeXkk 0x6 x kk
  | .addImm x kk => encodeXkk 0x7 x kk
  | .ldReg x y => encodeXyn 0x8 x y 0x0
  | .orReg x y => encodeXyn 0x8 x y 0x1
  | .andReg x y => encodeXyn 0x8 x y 0x2
  | .xorReg x y => encodeXyn 0x8 x y 0x3
  | .addReg x y => encodeXyn 0x8 x y 0x4
  | .sub x y => encodeXyn 0x8 x y 0x5
  | .shr x y => encodeXyn 0x8 x y 0x6
  | .subn x y => encodeXyn 0x8 x y 0x7
  | .shl x y => encodeXyn 0x8 x y 0xE
  | .sneReg x y => encodeXyn 0x9 x y 0x0
  | .ldI nnn => encodeNnn 0xA nnn
  | .jpV0 nnn => encodeNnn 0xB nnn
  | .rnd x kk => encodeXkk 0xC x kk
  | .drw x y n => encodeXyn 0xD x y n
  | .skp x => encodeXkk 0xE x 0x9E
  | .sknp x => encodeXkk 0xE x 0xA1
  | .ldVDt x => encodeXkk 0xF x 0x07
  | .ldVK x => encodeXkk 0xF x 0x0A
  | .ldDtV x => encodeXkk 0xF x 0x15
  | .ldStV x => encodeXkk 0xF x 0x18
  | .addI x => encodeXkk 0xF x 0x1E
  | .ldF x => encodeXkk 0xF x 0x29
  | .ldB x => encodeXkk 0xF x 0x33
  | .ldMemV x => encodeXkk 0xF x 0x55
  | .ldVMem x => encodeXkk 0xF x 0x65

end Sys2Proof
end

