-- ==== Sys2Proof/Machine/State.lean ====
section
/-! DEFINITION. The machine's state as plain data: the tuple of R34 and one field of the model's own (`draws`), the
fault kinds of R230, and the state after reset (R36, R37, R270). -/

namespace Sys2Proof.Machine

/-- The fault kinds of R230. A `step` of the model answers `Host.Outcome.fault k` only on a halted core whose
fault record has kind `k` (R100): the source says such a step is rejected until reset. The step that RAISES a
fault answers a next state, whose `halt` holds the record (R231; log entry 4). -/
inductive Fault where
  /-- Code 0: the step dispatched a word that matches no row (R90, R104). Raised by the step.
  Safe: the spec names this fault; a word the real core accepted would run there and stop here. -/
  | unknownInstruction
  /-- Code 1: a call with SP = 16 (R122). Raised by CALL. Safe: the spec names this fault. -/
  | stackOverflow
  /-- Code 2: a return with SP = 0 (R120). Raised by RET. Safe: the spec names this fault. -/
  | stackUnderflow
  /-- Code 3: an access past 0xFFF (R55, R103, R173). Raised by the fetch, DRW, LD_B, LD_MEM_V and LD_V_MEM.
  Safe: the spec names this fault. -/
  | memoryOutOfBounds
  /-- Code 4: a key instruction with Vx above 15 (R212). Raised by SKP and SKNP. The kind is the spec's own
  (D20). Safe: it can only add a stop that the real core lacks. -/
  | keyOutOfRange
  deriving DecidableEq, Repr

/-- The code of a fault kind in the table of R230 (D32). -/
def Fault.code : Fault → Nat
  | .unknownInstruction => 0
  | .stackOverflow => 1
  | .stackUnderflow => 2
  | .memoryOutOfBounds => 3
  | .keyOutOfRange => 4

/-- Why the model gives an instruction no meaning. -/
inductive Refusal where
  /-- The arm of `exec` for this instruction has no meaning yet. Raised by `exec` alone, for no
  instruction of this model. Safe: it can only stop a run. -/
  | notModelled (mnemonic : String)
  deriving DecidableEq, Repr

/-- A fault kind together with the `info` that R32 and R230 record with it: the instruction word, the first
address above 0xFFF, the key value, or nothing. -/
inductive FaultCause where
  | unknownInstruction (word : Word)
  | stackOverflow
  | stackUnderflow
  | memoryOutOfBounds (addr : Word)
  | keyOutOfRange (value : Byte)
  deriving DecidableEq, Repr

/-- The kind of a cause (R230). -/
def FaultCause.kind : FaultCause → Fault
  | .unknownInstruction _ => .unknownInstruction
  | .stackOverflow => .stackOverflow
  | .stackUnderflow => .stackUnderflow
  | .memoryOutOfBounds _ => .memoryOutOfBounds
  | .keyOutOfRange _ => .keyOutOfRange

/-- The fault record `{kind, pc, info}` of R32. `pc` is the address of the faulting instruction; `cause` carries
the kind and its info, so that the two cannot disagree. -/
structure FaultRecord where
  pc : Word
  cause : FaultCause
  deriving DecidableEq, Repr

/-- The recorded kind. -/
def FaultRecord.kind (r : FaultRecord) : Fault := r.cause.kind

/-- Memory (R50) as (address, byte) pairs in one canonical form (`Memory.wf` in Ops.lean): addresses strictly rising, and no
entry equal to what its address reads as when unlisted. -/
abbrev Memory := List Host.Cell

/-- The display (R29): 32 rows of 64 cells. Bit `x` of row `y` is the cell in column `x` of row `y`, that is
`disp[x + 64*y]` (log entry 18). -/
abbrev Display := Vector (BitVec 64) 32

/-- The state of the core: the tuple of R34, and `draws`, the model's own. -/
structure State where
  /-- V0 to VF (R20); VF, the flag register, is `v[15]` (R21, R39). -/
  v : Vector Byte 16
  /-- The index register I (R27); it may hold values above 0xFFF. -/
  i : Word
  /-- The program counter (R23): between steps, the address of the next instruction. -/
  pc : Word
  /-- The number of return addresses in use, 0 to 16 (R25). -/
  sp : Fin 17
  /-- The return stack (R25), not part of memory (R129). -/
  stack : Vector Word 16
  /-- The delay timer (R28). -/
  dt : Byte
  /-- The sound timer (R28). -/
  st : Byte
  /-- The 4096 bytes of memory (R50). -/
  mem : Memory
  /-- The display grid (R29). -/
  disp : Display
  /-- The key states: true is pressed (R30). -/
  keys : Vector Bool 16
  /-- The await-key register (R31): `some x` while waiting for a key into Vx. -/
  wait : Option Reg
  /-- The fault record (R32): `some` while halted. -/
  halt : Option FaultRecord
  /-- THE MODEL'S OWN: how many random draws have been taken. The next draw is `Config.randomByte draws`
  (R33, R151; log entry 1). -/
  draws : Nat
  deriving DecidableEq, Repr

/-- The state after reset (R36, R37, R270, R271). Memory lists nothing: an unlisted address reads as the reset
contents, the font and zero (`unlistedByte`). `draws := 0` is a DESIGN CHOICE (log entry 1) and no claim rests on it. -/
def State.reset : State where
  v := Vector.replicate 16 0
  i := 0x000
  pc := 0x200
  sp := 0
  stack := Vector.replicate 16 0x0000
  dt := 0
  st := 0
  mem := []
  disp := Vector.replicate 32 0
  keys := Vector.replicate 16 false
  wait := none
  halt := none
  draws := 0

end Sys2Proof.Machine
end

