-- ==== Sys2Proof/Machine/Ops.lean ====
section
/-! DEFINITION. The named operations over memory, registers, stack, keys and the random source, raising a fault, and the ways
an instruction moves PC. Every instruction's meaning is made of these. -/

namespace Sys2Proof.Machine

/-! ## Memory -/

/-- What an address reads as when memory lists no byte for it: the reset contents (R57, R58, R67, R270). Glyph 0 is the
source's, font bytes 5 to 79 are the free values of `FONT`, and everything else is zero (D23; log entries 2, 3). -/
def unlistedByte (a : Nat) : Byte :=
  if a < Config.glyphSize then Config.glyphZero.getD a 0
  else if a < Config.fontSize then Config.fontByte a
  else 0

/-- `MemRead(a, 1)` (R14, R52): the byte at `a`. A read has no side effect (R59). -/
def Memory.read : Memory → Nat → Byte
  | [], a => unlistedByte a
  | c :: rest, a => if c.1 = a then c.2 else Memory.read rest a

/-- Memory without an entry for `a`. -/
def Memory.without (m : Memory) (a : Nat) : Memory := m.filter fun c => c.1 != a

/-- The entry put in front of the first entry of a higher address. -/
def Memory.place (c : Host.Cell) : Memory → Memory
  | [] => [c]
  | d :: rest => if c.1 < d.1 then c :: d :: rest else d :: Memory.place c rest

/-- `MemWrite(a, 1, b)` (R14, R52, R59): afterwards `a` reads as `b`. Writing what the address reads as when unlisted
removes its entry, which keeps the canonical form. Callers have checked that `a` is at most 0xFFF (R55). -/
def Memory.write (m : Memory) (a : Nat) (b : Byte) : Memory :=
  if b = unlistedByte a then Memory.without m a else Memory.place (a, b) (Memory.without m a)

/-- The canonical form of memory: addresses strictly rising and inside the address space, and no entry equal to what
its address reads as when unlisted. -/
abbrev Memory.wf (m : Memory) : Prop :=
  m.Pairwise (fun c d => c.1 < d.1) ∧ ∀ c ∈ m, c.1 < Config.memorySize ∧ c.2 ≠ unlistedByte c.1

/-- The bytes at `start`, `start + 1`, and so on, `len` of them. -/
def Memory.readBlock (m : Memory) (start : Nat) : Nat → List Byte
  | 0 => []
  | len + 1 => Memory.read m start :: Memory.readBlock m (start + 1) len

/-- The bytes written at `start`, `start + 1`, and so on, in that order. -/
def Memory.writeBlock (m : Memory) (start : Nat) : List Byte → Memory
  | [] => m
  | b :: rest => Memory.writeBlock (Memory.write m start b) (start + 1) rest

/-- `InBounds(a, len)` (R14): every address from `a` to `a + len - 1` is in 0 to 0xFFF; true when `len = 0`. -/
def inBounds (a : Word) (len : Nat) : Bool := len == 0 || decide (a.toNat + len ≤ Config.memorySize)

/-- The first address above 0xFFF of a range that starts at `a` and passes 0xFFF: `max(a, 0x1000)` (R55, R173). -/
def firstOutside (a : Word) : Word := if a < 0x1000 then 0x1000 else a

/-! ## Faults -/

/-- `raise Fault(kind, info)` (R14, R231): taking a fault. The record gets the kind, the address of the faulting
instruction and the info; nothing else changes, PC included, and there is no handler to go to (R233). The core is then
halted (R100). Leaving a fault is `reset()` alone (R234; `resetCore` in Interface.lean): there is no return instruction. -/
def raise (c : FaultCause) (s : State) : Host.Outcome State Fault Refusal :=
  .next { s with halt := some { pc := s.pc, cause := c } }

/-- The bounds check of the instructions that reach memory (R173): if any address of the `len` bytes from `start`
passes 0xFFF, the fault is raised before any read or write; otherwise the instruction goes on. -/
def withRange (start : Word) (len : Nat) (s : State) (go : Host.Outcome State Fault Refusal) :
    Host.Outcome State Fault Refusal :=
  if inBounds start len then go else raise (.memoryOutOfBounds (firstOutside start)) s

/-! ## Registers -/

/-- `V[x]` (R13). -/
def State.reg (s : State) (x : Reg) : Byte := s.v[x]

/-- `V[x] <- b` (R13). -/
def State.setReg (s : State) (x : Reg) (b : Byte) : State := { s with v := s.v.set x b }

/-- A result and a flag: `V[x] <- b`, then VF, which is written last (R15, D5; log entry 11). -/
def State.setRegFlag (s : State) (x : Reg) (b flag : Byte) : State := (s.setReg x b).setReg Reg.flag flag

/-- V0 to Vx inclusive (R177). -/
def State.regsThrough (s : State) (x : Reg) : List Byte := s.v.toList.take (x.val + 1)

/-- Registers `k`, `k + 1`, and so on get the bytes, in that order (R178). -/
def loadRegs (v : Vector Byte 16) (k : Nat) : List Byte → Vector Byte 16
  | [] => v
  | b :: rest => loadRegs (v.setIfInBounds k b) (k + 1) rest

/-! ## The program counter -/

/-- Advance: `PC <- PC + 2` (R18, R101), mod 2^16 (R23). -/
def State.advance (s : State) : State := { s with pc := s.pc + 2 }

/-- Skip: `PC <- PC + 4` (R18, R101, R127). -/
def State.skip (s : State) : State := { s with pc := s.pc + 4 }

/-- A conditional skip: skip when the condition holds, else advance (R105). -/
def State.skipIf (s : State) (c : Bool) : State := if c then s.skip else s.advance

/-- `PC <- target`, a direct write (R101, R105). The target is not checked here (R130). -/
def State.jump (s : State) (target : Word) : State := { s with pc := target }

/-! ## The call stack -/

/-- Push (R25, R122): `stack[SP] <- w`, then SP + 1; none when SP = 16. -/
def State.push (s : State) (w : Word) : Option State :=
  if h : s.sp.val < 16 then
    some { s with stack := s.stack.set s.sp.val w, sp := ⟨s.sp.val + 1, by omega⟩ }
  else none

/-- Pop (R25, R120): SP - 1, then the slot at SP, which keeps its value; none when SP = 0. -/
def State.pop (s : State) : Option (Word × State) :=
  if h : s.sp.val = 0 then none
  else some (s.stack[s.sp.val - 1], { s with sp := ⟨s.sp.val - 1, by omega⟩ })

/-! ## Keys and the random source -/

/-- The state of the key that a register value names; none when the value is above 15 (R212). -/
def State.keyAt (s : State) (k : Byte) : Option Bool := s.keys[k.toNat]?

/-- One draw of `RandomByte` (R7, R14, R33, D24): the next free byte, and the state that has taken it. -/
def State.draw (s : State) : Byte × State := (Config.randomByte s.draws, { s with draws := s.draws + 1 })

/-! ## Fetch -/

/-- `Fetch(PC)` (R14, R53, R102): the big-endian word at PC and PC + 1; none when PC is above 0xFFE (R103). A
fetch changes no state. -/
def fetch (s : State) : Option Word :=
  if s.pc.toNat ≤ Config.lastFetchAddress then
    some (wordOfBytes (Memory.read s.mem s.pc.toNat) (Memory.read s.mem (s.pc.toNat + 1)))
  else none

end Sys2Proof.Machine
end

