-- ==== Sys2Proof/Machine/Flags.lean ====
section
/-! DEFINITION. Every value that an instruction writes to VF as a flag (R21, R39): 1 or 0. -/

namespace Sys2Proof.Machine

/-- A flag value: 1 when the condition holds, else 0 (R21). -/
def flagByte (c : Bool) : Byte := if c then 1 else 0

/-- The carry of add-register: 1 iff the unsigned sum exceeds 255 (R146). -/
def carryFlag (a b : Byte) : Byte := flagByte (decide (a.toNat + b.toNat > 255))

/-- The no-borrow flag of `a - b`: 1 iff `a >= b` (R147, R149). -/
def noBorrowFlag (a b : Byte) : Byte := flagByte (decide (a.toNat ≥ b.toNat))

/-- The bit that shift-right shifts out: old bit 0 (R148). -/
def lowBitFlag (a : Byte) : Byte := flagByte (a.getLsbD 0)

/-- The bit that shift-left shifts out: old bit 7 (R150). -/
def highBitFlag (a : Byte) : Byte := flagByte (a.getLsbD 7)

/-- The flag of add-index: 1 iff the unsigned sum `I + a` exceeds 0xFFF (R171). -/
def indexOverflowFlag (i : Word) (a : Byte) : Byte := flagByte (decide (i.toNat + a.toNat > 0xFFF))

/-- The collision flag of draw (R195). -/
def collisionFlag (hit : Bool) : Byte := flagByte hit

end Sys2Proof.Machine
end

