-- ==== Sys2Proof/Machine/Operands.lean ====
section
/-! DEFINITION. How operands are formed from the fields of an instruction and the state before it (R73), and the values
that instructions compute from them. Nothing here reads a value written by the same instruction (R15). -/

namespace Sys2Proof.Machine

/-- `zext_16(nnn)`: the address operand as a PC or I value (R12, R73). -/
def addressOperand (nnn : Addr12) : Word := nnn.setWidth 16

/-- `zext_16(b)`: a register value widened to 16 bits (R12). -/
def widen (b : Byte) : Word := b.setWidth 16

/-- The target of jump-relative, `nnn + V0` mod 2^16, not masked to 12 bits (R131). -/
def relativeTarget (nnn : Addr12) (v0 : Byte) : Word := addressOperand nnn + widen v0

/-- `(a + b) mod 256` (R141, R146). -/
def sumByte (a b : Byte) : Byte := a + b

/-- `(a - b) mod 256` (R147, R149). -/
def diffByte (a b : Byte) : Byte := a - b

/-- `a >> 1`, bit 7 filled with 0 (R148, R157). -/
def shiftRight (a : Byte) : Byte := a >>> 1

/-- `(a << 1) mod 256`, bit 0 filled with 0 (R150, R157). -/
def shiftLeft (a : Byte) : Byte := a <<< 1

/-- `(I + a) mod 2^16` (R171, D16). -/
def indexSum (i : Word) (a : Byte) : Word := i + widen a

/-- The address of the glyph that a register value names: `a * 5`, the whole value, not masked (R172, D18). -/
def glyphAddress (a : Byte) : Word := widen a * 5

/-- The decimal digits of a register value, hundreds first: `a / 100`, `(a / 10) mod 10`, `a mod 10` (R176). -/
def bcdDigits (a : Byte) : List Byte := [a / 100, (a / 10) % 10, a % 10]

end Sys2Proof.Machine
end

