-- ==== Sys2Proof/Machine/Control.lean ====
section
/-! DEFINITION. Control flow: return, jump, call, the skips on registers and jump-relative (spec/41_control_flow.md). PC
is the address of the instruction itself while it executes (R101). -/

namespace Sys2Proof.Machine

/-- `00EE` RET (R120): pop the call's own address and go 2 past it; a return on an empty stack faults. -/
def execRet (s : State) : Host.Outcome State Fault Refusal :=
  match s.pop with
  | none => raise .stackUnderflow s
  | some (a, s') => .next (s'.jump (a + 2))

/-- `1nnn` JP (R121). -/
def execJp (nnn : Addr12) (s : State) : Host.Outcome State Fault Refusal :=
  .next (s.jump (addressOperand nnn))

/-- `2nnn` CALL (R122): push the address of the call itself; a call on a full stack faults. -/
def execCall (nnn : Addr12) (s : State) : Host.Outcome State Fault Refusal :=
  match s.push s.pc with
  | none => raise .stackOverflow s
  | some s' => .next (s'.jump (addressOperand nnn))

/-- `3xkk` SE Vx, byte (R123). -/
def execSeImm (x : Reg) (kk : Byte) (s : State) : Host.Outcome State Fault Refusal :=
  .next (s.skipIf (s.reg x == kk))

/-- `4xkk` SNE Vx, byte (R124). -/
def execSneImm (x : Reg) (kk : Byte) (s : State) : Host.Outcome State Fault Refusal :=
  .next (s.skipIf (s.reg x != kk))

/-- `5xy0` SE Vx, Vy (R125). -/
def execSeReg (x y : Reg) (s : State) : Host.Outcome State Fault Refusal :=
  .next (s.skipIf (s.reg x == s.reg y))

/-- `9xy0` SNE Vx, Vy (R126). -/
def execSneReg (x y : Reg) (s : State) : Host.Outcome State Fault Refusal :=
  .next (s.skipIf (s.reg x != s.reg y))

/-- `Bnnn` JP V0, addr (R131). -/
def execJpV0 (nnn : Addr12) (s : State) : Host.Outcome State Fault Refusal :=
  .next (s.jump (relativeTarget nnn (s.reg Reg.zero)))

end Sys2Proof.Machine
end

