-- ==== Sys2Proof/Machine/Display.lean ====
section
/-! DEFINITION. Clear display and the sprite compositor (spec/44_display.md). -/

namespace Sys2Proof.Machine

/-- Row `y` of the grid, one bit for each column (R29); no cells beyond row 31. -/
def Display.row (d : Display) (y : Nat) : BitVec 64 := d[y]?.getD 0

/-- The cell in column `x` of row `y` (R29); a place outside the 64 by 32 grid has no cell and reads as clear. -/
def Display.pixel (d : Display) (x y : Nat) : Bool := (Display.row d y).getLsbD x

/-- The cell in column `x` of row `y` XORed with 1 (R192). -/
def Display.toggle (d : Display) (x y : Nat) : Display :=
  d.setIfInBounds y (Display.row d y ^^^ (1#64 <<< x))

/-- A display being drawn on, and whether a cell has gone from 1 to 0 (R191). -/
structure Canvas where
  disp : Display
  collision : Bool
  deriving DecidableEq, Repr

/-- One set sprite bit at column `x`, row `y` (R191): dropped when outside the grid (R194, D8), else XORed, with a
collision when the cell was 1 (R195). -/
def Canvas.plot (c : Canvas) (x y : Nat) : Canvas :=
  if x < Config.displayWidth ∧ y < Config.displayHeight then
    { disp := Display.toggle c.disp x y, collision := c.collision || Display.pixel c.disp x y }
  else c

/-- One sprite row on display row `y` from column `x` (R191, R192): the columns `k` to 7, `n` of them. Bit 7 is the
leftmost column (R193, D10), and a clear bit leaves its cell alone. -/
def Canvas.drawBits (c : Canvas) (bits : Byte) (x y k : Nat) : Nat → Canvas
  | 0 => c
  | n + 1 => Canvas.drawBits (if bits.getLsbD (7 - k) then c.plot (x + k) y else c) bits x y (k + 1) n

/-- One whole sprite row: columns 0 to 7. -/
def Canvas.drawRow (c : Canvas) (bits : Byte) (x y : Nat) : Canvas := c.drawBits bits x y 0 8

/-- The sprite's rows, the first on display row `y` (R192). -/
def Canvas.drawRows (c : Canvas) (x y : Nat) : List Byte → Canvas
  | [] => c
  | b :: rest => Canvas.drawRows (c.drawRow b x y) x (y + 1) rest

/-- `00E0` CLS (R190): zero all 2048 cells. -/
def execCls (s : State) : Host.Outcome State Fault Refusal :=
  .next { s with disp := Vector.replicate 32 0 }.advance

/-- The display with a sprite drawn on it, and the collision (R191). -/
def composite (s : State) (x y : Reg) (n : Fin 16) : Canvas :=
  Canvas.drawRows { disp := s.disp, collision := false } (s.reg x).toNat (s.reg y).toNat
    (Memory.readBlock s.mem s.i.toNat n.val)

/-- `Dxyn` DRW Vx, Vy, nibble (R191 to R196): the start coordinates are read before VF is written and are not reduced; VF is
the collision, written last. -/
def execDrw (x y : Reg) (n : Fin 16) (s : State) : Host.Outcome State Fault Refusal :=
  withRange s.i n.val s
    (.next ({ s with disp := (composite s x y n).disp }.setReg Reg.flag
      (collisionFlag (composite s x y n).collision)).advance)

end Sys2Proof.Machine
end

