-- ==== Sys2Proof/Machine/IndexMemory.lean ====
section
/-! DEFINITION. Index register and memory instructions (spec/43_index_memory.md). The memory instructions check their
whole range before any read or write (R173) and leave I unchanged (R174). -/

namespace Sys2Proof.Machine

/-- `Annn` LD I, addr (R170). -/
def execLdI (nnn : Addr12) (s : State) : Host.Outcome State Fault Refusal :=
  .next { s with i := addressOperand nnn }.advance

/-- `Fx1E` ADD I, Vx (R171): never faults; VF is 1 iff the sum exceeds 0xFFF, written last. -/
def execAddI (x : Reg) (s : State) : Host.Outcome State Fault Refusal :=
  .next ({ s with i := indexSum s.i (s.reg x) }.setReg Reg.flag (indexOverflowFlag s.i (s.reg x))).advance

/-- `Fx29` LD F, Vx (R172). -/
def execLdF (x : Reg) (s : State) : Host.Outcome State Fault Refusal :=
  .next { s with i := glyphAddress (s.reg x) }.advance

/-- `Fx33` LD B, Vx (R176): the three digits of Vx at I, I + 1 and I + 2. -/
def execLdB (x : Reg) (s : State) : Host.Outcome State Fault Refusal :=
  withRange s.i 3 s
    (.next { s with mem := Memory.writeBlock s.mem s.i.toNat (bcdDigits (s.reg x)) }.advance)

/-- `Fx55` LD [I], Vx (R177): V0 to Vx inclusive at I to I + x. -/
def execLdMemV (x : Reg) (s : State) : Host.Outcome State Fault Refusal :=
  withRange s.i (x.val + 1) s
    (.next { s with mem := Memory.writeBlock s.mem s.i.toNat (s.regsThrough x) }.advance)

/-- `Fx65` LD Vx, [I] (R178): the bytes at I to I + x, all read first, into V0 to Vx. -/
def execLdVMem (x : Reg) (s : State) : Host.Outcome State Fault Refusal :=
  withRange s.i (x.val + 1) s
    (.next { s with v := loadRegs s.v 0 (Memory.readBlock s.mem s.i.toNat (x.val + 1)) }.advance)

end Sys2Proof.Machine
end

