-- ==== Sys2Proof/Machine/KeysTimers.lean ====
section
/-! DEFINITION. Keypad and timer instructions (spec/45_keys_timers.md). The host's side is in Interface.lean. -/

namespace Sys2Proof.Machine

/-- `Ex9E` SKP Vx (R210): Vx above 15 faults before any key is read (R212). -/
def execSkp (x : Reg) (s : State) : Host.Outcome State Fault Refusal :=
  match s.keyAt (s.reg x) with
  | none => raise (.keyOutOfRange (s.reg x)) s
  | some pressed => .next (s.skipIf pressed)

/-- `ExA1` SKNP Vx (R211): Vx above 15 faults before any key is read (R212). -/
def execSknp (x : Reg) (s : State) : Host.Outcome State Fault Refusal :=
  match s.keyAt (s.reg x) with
  | none => raise (.keyOutOfRange (s.reg x)) s
  | some pressed => .next (s.skipIf (!pressed))

/-- `Fx07` LD Vx, DT (R213). -/
def execLdVDt (x : Reg) (s : State) : Host.Outcome State Fault Refusal :=
  .next (s.setReg x s.dt).advance

/-- `Fx0A` LD Vx, K (R216): the core waits, and PC is not advanced here. A press resolves the wait (`setKey` in
Interface.lean, R244). -/
def execLdVK (x : Reg) (s : State) : Host.Outcome State Fault Refusal :=
  .next { s with wait := some x }

/-- `Fx15` LD DT, Vx (R217). -/
def execLdDtV (x : Reg) (s : State) : Host.Outcome State Fault Refusal :=
  .next { s with dt := s.reg x }.advance

/-- `Fx18` LD ST, Vx (R218). -/
def execLdStV (x : Reg) (s : State) : Host.Outcome State Fault Refusal :=
  .next { s with st := s.reg x }.advance

end Sys2Proof.Machine
end

