-- ==== Sys2Proof/Machine/Cycle.lean ====
section
/-! DEFINITION. One call of `step()` (R100 to R109): the checks before fetch, fetch, decode and dispatch, and the result that
the step returns (R106); and how an instruction is placed where the next step fetches it. Step.lean calls these. -/

namespace Sys2Proof.Machine

/-- The complete step of R108, with the checks in the order of R236. A halted step is rejected with the recorded kind
and changes nothing (R100; log entry 4); a waiting step is a hold and changes nothing (R100, R245; log entry 5); a fetch
past memory (R103) and an unrecognized word (R104) raise their faults; otherwise the instruction executes. -/
def cycle (s : State) : Host.Outcome State Fault Refusal :=
  match s.halt with
  | some rec => .fault rec.kind
  | none =>
    match s.wait with
    | some _ => .next s
    | none =>
      match fetch s with
      | none => raise (.memoryOutOfBounds (firstOutside s.pc)) s
      | some w =>
        match decode w with
        | .instruction i => exec i s
        | .unknown w' => raise (.unknownInstruction w') s

/-- What a step returns to its caller (R10, R106). It is the step's result and no state (R34, D27; log entry 6). -/
inductive StepResult where
  | continue
  | displayChanged
  | awaitingKey (x : Reg)
  | fault (k : Fault)
  deriving DecidableEq, Repr

/-- The result of an instruction that raises no fault (R106): clear display and draw return `DisplayChanged`, await-key
returns `AwaitingKey(x)`, every other instruction returns `Continue`. -/
def completionResult : Instr → StepResult
  | .cls => .displayChanged
  | .ret => .continue
  | .jp _ => .continue
  | .call _ => .continue
  | .seImm _ _ => .continue
  | .sneImm _ _ => .continue
  | .seReg _ _ => .continue
  | .ldImm _ _ => .continue
  | .addImm _ _ => .continue
  | .ldReg _ _ => .continue
  | .orReg _ _ => .continue
  | .andReg _ _ => .continue
  | .xorReg _ _ => .continue
  | .addReg _ _ => .continue
  | .sub _ _ => .continue
  | .shr _ _ => .continue
  | .subn _ _ => .continue
  | .shl _ _ => .continue
  | .sneReg _ _ => .continue
  | .ldI _ => .continue
  | .jpV0 _ => .continue
  | .rnd _ _ => .continue
  | .drw _ _ _ => .displayChanged
  | .skp _ => .continue
  | .sknp _ => .continue
  | .ldVDt _ => .continue
  | .ldVK x => .awaitingKey x
  | .ldDtV _ => .continue
  | .ldStV _ => .continue
  | .addI _ => .continue
  | .ldF _ => .continue
  | .ldB _ => .continue
  | .ldMemV _ => .continue
  | .ldVMem _ => .continue

/-- The result of a step that began in `s` and had the outcome `o` (R106): the fault's kind when the core is halted
(before or by this step), `AwaitingKey` while waiting, and otherwise what the executed instruction returns.
None is for a refusal alone, which no instruction of this model gives. -/
def resultOf (s : State) (o : Host.Outcome State Fault Refusal) : Option StepResult :=
  match o with
  | .fault k => some (.fault k)
  | .refused _ => none
  | .next t =>
    match t.halt with
    | some rec => some (.fault rec.kind)
    | none =>
      match s.wait with
      | some x => some (.awaitingKey x)
      | none =>
        match (fetch s).map decode with
        | some (.instruction i) => some (completionResult i)
        | _ => none

/-- The result of `step()` called in `s` (R106). -/
def stepResult (s : State) : Option StepResult := resultOf s (cycle s)

/-- An instruction's bytes stored where the next step fetches it, so that the very next step runs it. On a core that
can fetch, only the two bytes at PC change; a hold or a halt is lifted and a PC that cannot be fetched from goes to the
program base (log entry 8). -/
def placeBytes (bytes : List Byte) (s : State) : State :=
  let pc : Word := if s.pc.toNat ≤ Config.lastFetchAddress then s.pc else BitVec.ofNat 16 Config.programBase
  { s with pc := pc, wait := none, halt := none, mem := Memory.writeBlock s.mem pc.toNat bytes }

end Sys2Proof.Machine
end

