-- ==== Sys2Proof/Machine/Step.lean ====
section
/-! DEFINITION. One step of the core, and an instruction placed where the next step fetches. -/

namespace Sys2Proof.Machine

/-- One call of `step()` (R108): `cycle` in Cycle.lean. -/
def step (s : State) : Host.Outcome State Fault Refusal := cycle s

/-- The table word `w` of `nbits` bits stored where `step` fetches its next instruction. -/
def State.withFetchWord (s : State) (nbits w : Nat) : State := placeBytes (tableBytes nbits w) s

end Sys2Proof.Machine
end

