-- ==== Sys2Proof/Machine/Interface.lean ====
section
/-! DEFINITION. The host's operations (R10, R250): each is atomic, and any list of them is a schedule (R7, R60). -/

namespace Sys2Proof.Machine

/-- A counter that decrements toward zero, never below (R240). -/
def decay (t : Byte) : Byte := if t.toNat > 0 then t - 1 else t

/-- `tickTimers()` (R240): both timers, in every state. -/
def tickTimers (s : State) : State := { s with dt := decay s.dt, st := decay s.st }

/-- The await-key resolution of R244: the pressed key goes into the waiting register, PC advances past the
await-key instruction, and the wait ends. -/
def resolveWait (k : Byte) (s : State) : State :=
  match s.wait with
  | none => s
  | some r => { (s.setReg r k).advance with wait := none }

/-- What `setKey` returns (R243). -/
inductive KeyReturn where
  | ok
  | invalidKeyIndex
  deriving DecidableEq, Repr

/-- `setKey(index, pressed)` (R243): an index outside 0 to 15 is rejected and changes nothing (R235); a press
resolves a wait in the same operation (R244), a release does not. -/
def setKey (index : Int) (pressed : Bool) (s : State) : KeyReturn × State :=
  if 0 ≤ index ∧ index ≤ 15 then
    let k := index.toNat
    let s' := { s with keys := s.keys.setIfInBounds k pressed }
    (.ok, if pressed then resolveWait (BitVec.ofNat 8 k) s' else s')
  else (.invalidKeyIndex, s)

/-- What `loadProgram` returns (R272). -/
inductive LoadReturn where
  | ok
  | programTooLarge
  deriving DecidableEq, Repr

/-- `loadProgram(bytes)` (R272): a copy to 0x200 and up; an image of more than 3584 bytes is rejected and changes
nothing (R235). -/
def loadProgram (bytes : List Byte) (s : State) : LoadReturn × State :=
  if bytes.length ≤ Config.maxProgramLength then
    (.ok, { s with mem := Memory.writeBlock s.mem Config.programBase bytes })
  else (.programTooLarge, s)

/-- `reset()` (R270), in every state. It leaves alone which random draws have been taken, for the random source is not
state of the core (R33; log entry 1). -/
def resetCore (s : State) : State := { State.reset with draws := s.draws }

/-- The state after one call of `step()`: a rejected step (R100) leaves the state as it is. -/
def afterStep (s : State) : State :=
  match step s with
  | .next t => t
  | .fault _ => s
  | .refused _ => s

/-- The state-changing operations of the interface (R10, R250). -/
inductive Operation where
  | step
  | tickTimers
  | setKey (index : Int) (pressed : Bool)
  | loadProgram (bytes : List Byte)
  | reset
  deriving DecidableEq, Repr

/-- What an operation returns to the host (R250). -/
inductive Response where
  | result (r : Option StepResult)
  | key (r : KeyReturn)
  | load (r : LoadReturn)
  | done
  deriving DecidableEq, Repr

/-- One operation, performed whole (R60). -/
def perform (op : Operation) (s : State) : Response × State :=
  match op with
  | .step => (.result (stepResult s), afterStep s)
  | .tickTimers => (.done, tickTimers s)
  | .setKey index pressed => (.key (setKey index pressed s).1, (setKey index pressed s).2)
  | .loadProgram bytes => (.load (loadProgram bytes s).1, (loadProgram bytes s).2)
  | .reset => (.done, resetCore s)

/-- A schedule (R7, R60): the operations one after another, each on the state the one before it left. -/
def runSchedule (ops : List Operation) (s : State) : State :=
  match ops with
  | [] => s
  | op :: rest => runSchedule rest (perform op s).2

/-- The sound-active output (R242): `ST > 0`. -/
def soundActive (s : State) : Bool := decide (s.st.toNat > 0)

/-- The display snapshot (R38, R198): the 2048 cells row by row, 64 wide, cell `x + 64*y` in place `x + 64*y` (R29). -/
def displaySnapshot (s : State) : List Bool :=
  (List.range 2048).map fun j => Display.pixel s.disp (j % 64) (j / 64)

/-- The register-file snapshot (R38): V0 to VF, I, PC, SP and the timers. -/
structure RegisterSnapshot where
  v : Vector Byte 16
  i : Word
  pc : Word
  sp : Fin 17
  dt : Byte
  st : Byte
  deriving DecidableEq, Repr

/-- The registers as the host reads them; reading changes no state (R38, R198). -/
def registerSnapshot (s : State) : RegisterSnapshot :=
  { v := s.v, i := s.i, pc := s.pc, sp := s.sp, dt := s.dt, st := s.st }

/-- The diagnostic snapshot (R38, R233, R248): the display, the registers and the fault record `halt` with its kind, pc
and info. The step result tells the host a fault's kind alone (R106); the rest of the record is read here. -/
structure DiagnosticSnapshot where
  display : List Bool
  registers : RegisterSnapshot
  fault : Option FaultRecord
  deriving DecidableEq, Repr

/-- What the host reads for diagnosis; reading changes no state (R38, R250). -/
def diagnosticSnapshot (s : State) : DiagnosticSnapshot :=
  { display := displaySnapshot s, registers := registerSnapshot s, fault := s.halt }

end Sys2Proof.Machine
end

