-- ==== Sys2Proof/Laws/Memory.lean ====
section
/-! SUPPORT. Memory: read after write, and that every memory operation keeps the canonical form. -/

namespace Sys2Proof.Machine

namespace Memory

@[simp] theorem read_nil (a : Nat) : read [] a = unlistedByte a := rfl

theorem read_cons (c : Host.Cell) (m : Memory) (a : Nat) :
    read (c :: m) a = if c.1 = a then c.2 else read m a := rfl

/-- Dropping the entry of one address leaves every other address alone, and that address reads as unlisted. -/
theorem read_without (m : Memory) (a b : Nat) :
    read (without m a) b = if b = a then unlistedByte a else read m b := by
  induction m with
  | nil => by_cases h : b = a <;> simp [without, h]
  | cons c rest ih =>
    by_cases hc : c.1 = a
    · have hdrop : without (c :: rest) a = without rest a := by simp [without, hc]
      rw [hdrop, ih, read_cons]
      by_cases hb : b = a
      · simp [hb]
      · simp [hb, hc, Ne.symm hb]
    · have hkeep : without (c :: rest) a = c :: without rest a := by simp [without, hc]
      rw [hkeep, read_cons, ih, read_cons]
      by_cases hb : b = a
      · simp [hb, hc]
      · simp [hb]

/-- Placing an entry whose address is not listed gives that address its byte and leaves the others alone. -/
theorem read_place (c : Host.Cell) (m : Memory) (b : Nat) (h : ∀ d ∈ m, d.1 ≠ c.1) :
    read (place c m) b = if b = c.1 then c.2 else read m b := by
  induction m with
  | nil =>
    by_cases hb : b = c.1
    · simp [place, read_cons, hb]
    · simp [place, read_cons, hb, Ne.symm hb]
  | cons d rest ih =>
    have hd : d.1 ≠ c.1 := h d (by simp)
    have ih' := ih fun e he => h e (by simp [he])
    simp only [place]
    split
    · by_cases hb : b = c.1 <;> simp [read_cons, hb, eq_comm]
    · simp only [read_cons, ih']
      by_cases hb : b = c.1
      · simp [hb, hd]
      · simp [hb]

theorem mem_without {m : Memory} {a : Nat} {c : Host.Cell} : c ∈ without m a ↔ c ∈ m ∧ c.1 ≠ a := by
  simp [without]

/-- Read after write (R14, R61): the address written reads as written, every other address as before. -/
@[simp] theorem read_write (m : Memory) (a b : Nat) (v : Byte) :
    read (write m a v) b = if b = a then v else read m b := by
  unfold write
  split
  · rename_i hv
    rw [read_without, hv]
  · rw [read_place _ _ _ fun d hd => (mem_without.1 hd).2, read_without]
    by_cases hb : b = a <;> simp [hb]

/-- What a block write leaves in every byte: its own bytes where it wrote, the old bytes elsewhere. -/
theorem read_writeBlock (bs : List Byte) (m : Memory) (start b : Nat) :
    read (writeBlock m start bs) b =
      if start ≤ b ∧ b < start + bs.length then bs.getD (b - start) 0 else read m b := by
  induction bs generalizing m start with
  | nil => simp [writeBlock]
  | cons x rest ih =>
    simp only [writeBlock, ih, read_write, List.length_cons]
    by_cases h1 : b = start
    · subst h1
      simp
    · by_cases h2 : start + 1 ≤ b ∧ b < start + 1 + rest.length
      · have h3 : start ≤ b ∧ b < start + (rest.length + 1) := by omega
        obtain ⟨k, rfl⟩ : ∃ k, b = start + 1 + k := ⟨b - (start + 1), by omega⟩
        have e1 : start + 1 + k - (start + 1) = k := by omega
        have e2 : start + 1 + k - start = k + 1 := by omega
        rw [if_pos h2, if_pos h3, e1, e2]
        simp
      · have h3 : ¬(start ≤ b ∧ b < start + (rest.length + 1)) := by omega
        rw [if_neg h2, if_neg h3, if_neg h1]

@[simp] theorem length_readBlock (m : Memory) (start len : Nat) : (readBlock m start len).length = len := by
  induction len generalizing start with
  | zero => rfl
  | succ n ih => simp [readBlock, ih]

/-- A block read gives the bytes at its addresses, in order. -/
theorem getElem_readBlock (m : Memory) (start len k : Nat) (h : k < (readBlock m start len).length) :
    (readBlock m start len)[k] = read m (start + k) := by
  induction len generalizing start k with
  | zero => simp [readBlock] at h
  | succ n ih =>
    cases k with
    | zero => simp [readBlock]
    | succ k =>
      simp only [readBlock, List.getElem_cons_succ]
      rw [ih]
      congr 1
      omega

/-! ### The canonical form -/

theorem wf_nil : wf ([] : Memory) := ⟨List.Pairwise.nil, by simp⟩

theorem wf_without {m : Memory} (h : wf m) (a : Nat) : wf (without m a) :=
  ⟨h.1.filter _, fun c hc => h.2 c (mem_without.1 hc).1⟩

theorem mem_place {c d : Host.Cell} {m : Memory} : d ∈ place c m ↔ d = c ∨ d ∈ m := by
  induction m with
  | nil => simp [place]
  | cons e rest ih =>
    simp only [place]
    split
    · simp
    · simp only [List.mem_cons, ih]
      tauto

/-- Placing an entry of an unlisted address keeps the addresses strictly rising. -/
theorem pairwise_place {c : Host.Cell} {m : Memory} (h : m.Pairwise fun c d => c.1 < d.1)
    (hc : ∀ d ∈ m, d.1 ≠ c.1) : (place c m).Pairwise fun c d => c.1 < d.1 := by
  induction m with
  | nil => simp [place]
  | cons e rest ih =>
    obtain ⟨he, hrest⟩ := List.pairwise_cons.1 h
    have hne : e.1 ≠ c.1 := hc e (by simp)
    simp only [place]
    split
    · rename_i hlt
      refine List.pairwise_cons.2 ⟨fun d hd => ?_, h⟩
      rcases List.mem_cons.1 hd with rfl | hd
      · exact hlt
      · exact lt_trans hlt (he d hd)
    · rename_i hge
      refine List.pairwise_cons.2 ⟨fun d hd => ?_, ih hrest fun d hd => hc d (by simp [hd])⟩
      rcases mem_place.1 hd with rfl | hd
      · omega
      · exact he d hd

/-- A write inside the address space keeps the canonical form. -/
theorem wf_write {m : Memory} (h : wf m) {a : Nat} (ha : a < Config.memorySize) (b : Byte) : wf (write m a b) := by
  unfold write
  split
  · exact wf_without h a
  · rename_i hb
    have hw := wf_without h a
    refine ⟨pairwise_place hw.1 fun d hd => (mem_without.1 hd).2, fun d hd => ?_⟩
    rcases mem_place.1 hd with rfl | hd
    · exact ⟨ha, hb⟩
    · exact hw.2 d hd

/-- A block write inside the address space keeps the canonical form. -/
theorem wf_writeBlock (bs : List Byte) {m : Memory} (h : wf m) (start : Nat)
    (hs : start + bs.length ≤ Config.memorySize ∨ bs = []) : wf (writeBlock m start bs) := by
  induction bs generalizing m start with
  | nil => exact h
  | cons b rest ih =>
    have hlen : start + (rest.length + 1) ≤ Config.memorySize := by simpa using hs
    exact ih (wf_write h (by omega) b) (start + 1) (.inl (by omega))

end Memory

end Sys2Proof.Machine
end

