-- ==== Sys2Proof/Laws/Ops.lean ====
section
/-! SUPPORT. What each shared operation can do, said once. -/

namespace Sys2Proof.Machine

/-! ### Faults and bounds -/

theorem inBounds_iff (a : Word) (len : Nat) :
    inBounds a len = true ↔ len = 0 ∨ a.toNat + len ≤ Config.memorySize := by
  simp [inBounds]

/-- The recorded address is `max(a, 0x1000)` (R55). -/
theorem firstOutside_toNat (a : Word) : (firstOutside a).toNat = max a.toNat 0x1000 := by
  unfold firstOutside
  split
  · rename_i h
    have h' : a.toNat < 4096 := by simpa [BitVec.lt_def] using h
    have e : (0x1000 : Word).toNat = 0x1000 := rfl
    omega
  · rename_i h
    have h' : 4096 ≤ a.toNat := by simpa [BitVec.lt_def] using h
    omega

/-- Raising a fault changes `halt` and nothing else (R231). -/
theorem raise_eq (c : FaultCause) (s : State) :
    raise c s = .next { s with halt := some { pc := s.pc, cause := c } } := rfl

theorem withRange_inside {a : Word} {len : Nat} (h : len = 0 ∨ a.toNat + len ≤ Config.memorySize) (s : State)
    (go : Host.Outcome State Fault Refusal) : withRange a len s go = go := by
  simp [withRange, (inBounds_iff a len).2 h]

theorem withRange_outside {a : Word} {len : Nat} (h : ¬(len = 0 ∨ a.toNat + len ≤ Config.memorySize)) (s : State)
    (go : Host.Outcome State Fault Refusal) :
    withRange a len s go = raise (.memoryOutOfBounds (firstOutside a)) s := by
  have hb : inBounds a len = false := by
    rw [← Bool.not_eq_true, inBounds_iff]
    exact h
  simp [withRange, hb]

/-! ### The stack -/

theorem push_full {s : State} (h : s.sp.val = 16) (w : Word) : s.push w = none := by
  simp [State.push, h]

theorem push_room {s : State} (h : s.sp.val < 16) (w : Word) :
    s.push w = some { s with stack := s.stack.set s.sp.val w, sp := ⟨s.sp.val + 1, by omega⟩ } := by
  simp [State.push, h]

theorem pop_empty {s : State} (h : s.sp.val = 0) : s.pop = none := by
  simp [State.pop, h]

theorem pop_some {s : State} (h : s.sp.val ≠ 0) :
    s.pop = some (s.stack[s.sp.val - 1]'(by omega), { s with sp := ⟨s.sp.val - 1, by omega⟩ }) := by
  simp [State.pop, h]

/-! ### Keys -/

theorem keyAt_none {s : State} {k : Byte} (h : 15 < k.toNat) : s.keyAt k = none := by
  simp only [State.keyAt]
  exact Vector.getElem?_eq_none (by omega)

theorem keyAt_some {s : State} {k : Byte} (h : k.toNat < 16) : s.keyAt k = some s.keys[k.toNat] := by
  simp [State.keyAt, h]

/-! ### Register blocks -/

/-- What a block load leaves in each register: the bytes from register `k` on, the old values elsewhere (R178). -/
theorem getElem_loadRegs (bs : List Byte) (v : Vector Byte 16) (k : Nat) (r : Nat) (hr : r < 16) :
    (loadRegs v k bs)[r] = if k ≤ r ∧ r < k + bs.length then bs.getD (r - k) 0 else v[r] := by
  induction bs generalizing v k with
  | nil => simp [loadRegs]
  | cons b rest ih =>
    simp only [loadRegs, ih, List.length_cons]
    by_cases h1 : r = k
    · subst h1
      simp
    · by_cases h2 : k + 1 ≤ r ∧ r < k + 1 + rest.length
      · have h3 : k ≤ r ∧ r < k + (rest.length + 1) := by omega
        obtain ⟨j, rfl⟩ : ∃ j, r = k + 1 + j := ⟨r - (k + 1), by omega⟩
        have e1 : k + 1 + j - (k + 1) = j := by omega
        have e2 : k + 1 + j - k = j + 1 := by omega
        rw [if_pos h2, if_pos h3, e1, e2]
        simp
      · have h3 : ¬(k ≤ r ∧ r < k + (rest.length + 1)) := by omega
        rw [if_neg h2, if_neg h3]
        simp [Ne.symm h1]

@[simp] theorem length_regsThrough (s : State) (x : Reg) : (s.regsThrough x).length = x.val + 1 := by
  simp [State.regsThrough]

/-- The byte `k` of V0 to Vx is Vk (R177). -/
theorem getD_regsThrough (s : State) (x : Reg) (k : Nat) (h : k ≤ x.val) :
    (s.regsThrough x).getD k 0 = s.v[k]'(by omega) := by
  have hx := x.isLt
  have h1 : k < x.val + 1 := by omega
  simp [State.regsThrough, List.getD_eq_getElem?_getD, h1]

theorem length_bcdDigits (a : Byte) : (bcdDigits a).length = 3 := rfl

/-! ### Fetch -/

theorem fetch_inside {s : State} (h : s.pc.toNat ≤ Config.lastFetchAddress) :
    fetch s = some (wordOfBytes (Memory.read s.mem s.pc.toNat) (Memory.read s.mem (s.pc.toNat + 1))) := by
  simp [fetch, h]

theorem fetch_outside {s : State} (h : ¬s.pc.toNat ≤ Config.lastFetchAddress) : fetch s = none := by
  simp [fetch, h]

/-- Fetch is big-endian (R53). -/
theorem wordOfBytes_toNat (hi lo : Byte) : (wordOfBytes hi lo).toNat = 256 * hi.toNat + lo.toNat := by
  simp only [wordOfBytes, BitVec.toNat_append]
  rw [← Nat.shiftLeft_add_eq_or_of_lt lo.isLt, Nat.shiftLeft_eq]
  omega

/-! ### Arithmetic -/

theorem sumByte_toNat (a b : Byte) : (sumByte a b).toNat = (a.toNat + b.toNat) % 256 := by
  simp [sumByte]

theorem diffByte_toNat (a b : Byte) : (diffByte a b).toNat = (256 + a.toNat - b.toNat) % 256 := by
  have := b.isLt
  simp only [diffByte, BitVec.toNat_sub]
  congr 1
  omega

theorem shiftRight_toNat (a : Byte) : (shiftRight a).toNat = a.toNat / 2 := by
  simp [shiftRight, Nat.shiftRight_eq_div_pow]

theorem shiftLeft_toNat (a : Byte) : (shiftLeft a).toNat = (a.toNat * 2) % 256 := by
  simp [shiftLeft, Nat.shiftLeft_eq]

@[simp] theorem addressOperand_toNat (nnn : Addr12) : (addressOperand nnn).toNat = nnn.toNat := by
  have := nnn.isLt
  simp [addressOperand]
  omega

@[simp] theorem widen_toNat (b : Byte) : (widen b).toNat = b.toNat := by
  have := b.isLt
  simp [widen]
  omega

theorem relativeTarget_toNat (nnn : Addr12) (b : Byte) : (relativeTarget nnn b).toNat = nnn.toNat + b.toNat := by
  have := nnn.isLt
  have := b.isLt
  simp [relativeTarget]
  omega

theorem indexSum_toNat (i : Word) (a : Byte) : (indexSum i a).toNat = (i.toNat + a.toNat) % 65536 := by
  simp [indexSum]

theorem glyphAddress_toNat (a : Byte) : (glyphAddress a).toNat = a.toNat * 5 := by
  have := a.isLt
  simp [glyphAddress]
  omega

theorem flagByte_eq_one (c : Bool) : flagByte c = 1 ↔ c = true := by cases c <;> simp [flagByte]

theorem flagByte_eq_zero (c : Bool) : flagByte c = 0 ↔ c = false := by cases c <;> simp [flagByte]

/-- The timer decay (R240): one less, never below zero. -/
theorem decay_toNat (t : Byte) : (decay t).toNat = t.toNat - 1 := by
  unfold decay
  split
  · rename_i h
    have := t.isLt
    have e : (1 : Byte).toNat = 1 := rfl
    rw [BitVec.toNat_sub, e]
    omega
  · omega

end Sys2Proof.Machine
end

