-- ==== Sys2Proof/Laws/Draw.lean ====
section
/-! SUPPORT. The sprite compositor, cell by cell: what drawing a sprite does to each cell of the grid, and when it
collides. -/

namespace Sys2Proof.Machine

theorem row_setIfInBounds (d : Display) (y Y : Nat) (r : BitVec 64) (hy : y < 32) :
    Display.row (d.setIfInBounds y r) Y = if Y = y then r else Display.row d Y := by
  simp only [Display.row, Vector.getElem?_setIfInBounds]
  by_cases h : Y = y
  · subst h
    simp [hy]
  · simp [h, Ne.symm h]

/-- XORing one cell with 1 flips that cell and no other (R192). -/
theorem pixel_toggle (d : Display) (x y X Y : Nat) (hy : y < 32) (hX : X < 64) :
    Display.pixel (Display.toggle d x y) X Y = (Display.pixel d X Y ^^ decide (X = x ∧ Y = y)) := by
  simp only [Display.pixel, Display.toggle, row_setIfInBounds _ _ _ _ hy]
  by_cases h : Y = y
  · subst h
    simp only [if_true, BitVec.getLsbD_xor, BitVec.getLsbD_shiftLeft, BitVec.getLsbD_one]
    congr 1
    rw [Bool.eq_iff_iff]
    simp
    omega
  · simp [h]

theorem plot_pixel (c : Canvas) (x y X Y : Nat) (hX : X < 64) (hY : Y < 32) :
    Display.pixel (c.plot x y).disp X Y = (Display.pixel c.disp X Y ^^ decide (X = x ∧ Y = y)) := by
  unfold Canvas.plot
  split
  · rename_i h
    exact pixel_toggle _ _ _ _ _ h.2 hX
  · rename_i h
    have : ¬(X = x ∧ Y = y) := by
      rintro ⟨rfl, rfl⟩
      exact h ⟨hX, hY⟩
    simp [this]

theorem plot_collision (c : Canvas) (x y : Nat) :
    (c.plot x y).collision = true ↔
      c.collision = true ∨ (x < 64 ∧ y < 32 ∧ Display.pixel c.disp x y = true) := by
  unfold Canvas.plot
  split
  · rename_i h
    have h1 : x < 64 := h.1
    have h2 : y < 32 := h.2
    simp [h1, h2]
  · rename_i h
    have : ¬(x < 64 ∧ y < 32) := h
    constructor
    · exact .inl
    · rintro (hc | ⟨h1, h2, -⟩)
      · exact hc
      · exact absurd ⟨h1, h2⟩ this

/-- The columns `k` to `k + n - 1` of a sprite row flip exactly the cells under its set bits (R192, R193). -/
theorem drawBits_pixel (n : Nat) (c : Canvas) (bits : Byte) (x y k X Y : Nat) (hX : X < 64) (hY : Y < 32) :
    Display.pixel (c.drawBits bits x y k n).disp X Y =
      (Display.pixel c.disp X Y ^^
        decide (Y = y ∧ x + k ≤ X ∧ X < x + k + n ∧ bits.getLsbD (7 - (X - x)) = true)) := by
  induction n generalizing c k with
  | zero =>
    have : ¬(Y = y ∧ x + k ≤ X ∧ X < x + k + 0 ∧ bits.getLsbD (7 - (X - x)) = true) := by omega
    simp only [Canvas.drawBits, decide_eq_false this, Bool.xor_false]
  | succ n ih =>
    simp only [Canvas.drawBits, ih]
    by_cases hXk : X = x + k
    · have e : X - x = k := by omega
      have hno : ¬(Y = y ∧ x + (k + 1) ≤ X ∧ X < x + (k + 1) + n ∧ bits.getLsbD (7 - (X - x)) = true) := by omega
      rw [decide_eq_false hno, Bool.xor_false, e]
      have hle : x + k ≤ X := by omega
      have hlt : X < x + k + (n + 1) := by omega
      by_cases hb : bits.getLsbD (7 - k) = true
      · rw [if_pos hb, plot_pixel _ _ _ _ _ hX hY]
        congr 1
        simp [hXk, hb]
      · rw [if_neg hb]
        simp [hb]
    · have hiff : (Y = y ∧ x + (k + 1) ≤ X ∧ X < x + (k + 1) + n ∧ bits.getLsbD (7 - (X - x)) = true) ↔
          (Y = y ∧ x + k ≤ X ∧ X < x + k + (n + 1) ∧ bits.getLsbD (7 - (X - x)) = true) := by
        constructor
        · rintro ⟨h1, h2, h3, h4⟩
          exact ⟨h1, by omega, by omega, h4⟩
        · rintro ⟨h1, h2, h3, h4⟩
          exact ⟨h1, by omega, by omega, h4⟩
      rw [decide_eq_decide.2 hiff]
      congr 1
      split
      · rw [plot_pixel _ _ _ _ _ hX hY]
        simp [hXk]
      · rfl

/-- A sprite row collides iff a set bit inside the grid found its cell at 1 (R195). -/
theorem drawBits_collision (n : Nat) (c : Canvas) (bits : Byte) (x y k : Nat) :
    (c.drawBits bits x y k n).collision = true ↔
      c.collision = true ∨ ∃ X, x + k ≤ X ∧ X < x + k + n ∧ X < 64 ∧ y < 32 ∧
        bits.getLsbD (7 - (X - x)) = true ∧ Display.pixel c.disp X y = true := by
  induction n generalizing c k with
  | zero =>
    simp only [Canvas.drawBits]
    constructor
    · exact .inl
    · rintro (h | ⟨X, h1, h2, -⟩)
      · exact h
      · omega
  | succ n ih =>
    simp only [Canvas.drawBits, ih]
    have hpix : ∀ X, x + (k + 1) ≤ X → X < 64 → y < 32 →
        Display.pixel (if bits.getLsbD (7 - k) = true then c.plot (x + k) y else c).disp X y =
          Display.pixel c.disp X y := by
      intro X h1 h2 h3
      split
      · rw [plot_pixel _ _ _ _ _ h2 h3]
        have : X ≠ x + k := by omega
        simp [this]
      · rfl
    have e : x + k - x = k := by omega
    constructor
    · rintro (h | ⟨X, h1, h2, h3, h4, h5, h6⟩)
      · split at h
        · rename_i hb
          rcases (plot_collision _ _ _).1 h with h | ⟨h1, h2, h3⟩
          · exact .inl h
          · exact .inr ⟨x + k, le_refl _, by omega, h1, h2, by rw [e]; exact hb, h3⟩
        · exact .inl h
      · exact .inr ⟨X, by omega, by omega, h3, h4, h5, by rw [← hpix X h1 h3 h4]; exact h6⟩
    · rintro (h | ⟨X, h1, h2, h3, h4, h5, h6⟩)
      · left
        split
        · exact (plot_collision _ _ _).2 (.inl h)
        · exact h
      · by_cases hX : X = x + k
        · left
          subst hX
          rw [e] at h5
          rw [if_pos h5]
          exact (plot_collision _ _ _).2 (.inr ⟨h3, h4, h6⟩)
        · right
          have h1' : x + (k + 1) ≤ X := by omega
          exact ⟨X, h1', by omega, h3, h4, h5, by rw [hpix X h1' h3 h4]; exact h6⟩

/-- The bit of a sprite at a display place: the sprite's rows stand from row `y` on, their columns from column `x`
on, bit 7 leftmost (R192, R193). -/
def rowsBit (rows : List Byte) (x y X Y : Nat) : Bool :=
  decide (x ≤ X ∧ X < x + 8 ∧ y ≤ Y ∧ Y < y + rows.length) && (rows.getD (Y - y) 0).getLsbD (7 - (X - x))

theorem rowsBit_cons (b : Byte) (rest : List Byte) (x y X Y : Nat) :
    rowsBit (b :: rest) x y X Y =
      if Y = y then decide (x ≤ X ∧ X < x + 8 ∧ b.getLsbD (7 - (X - x)) = true) else rowsBit rest x (y + 1) X Y := by
  unfold rowsBit
  by_cases h : Y = y
  · subst h
    rw [Bool.eq_iff_iff]
    simp
    tauto
  · rw [if_neg h]
    by_cases h2 : y + 1 ≤ Y
    · obtain ⟨j, rfl⟩ : ∃ j, Y = y + 1 + j := ⟨Y - (y + 1), by omega⟩
      have e1 : y + 1 + j - y = j + 1 := by omega
      have e2 : y + 1 + j - (y + 1) = j := by omega
      rw [e1, e2]
      congr 1
      rw [Bool.eq_iff_iff]
      simp
      omega
    · have n1 : ¬(x ≤ X ∧ X < x + 8 ∧ y ≤ Y ∧ Y < y + (b :: rest).length) := by omega
      have n2 : ¬(x ≤ X ∧ X < x + 8 ∧ y + 1 ≤ Y ∧ Y < y + 1 + rest.length) := by omega
      rw [decide_eq_false n1, decide_eq_false n2]
      rfl

/-- A drawn sprite flips exactly the cells of the grid under its set bits (R191, R192, R194). -/
theorem drawRows_pixel (rows : List Byte) (c : Canvas) (x y X Y : Nat) (hX : X < 64) (hY : Y < 32) :
    Display.pixel (c.drawRows x y rows).disp X Y = (Display.pixel c.disp X Y ^^ rowsBit rows x y X Y) := by
  induction rows generalizing c y with
  | nil =>
    have : rowsBit [] x y X Y = false := by
      simp [rowsBit]
    simp [Canvas.drawRows, this]
  | cons b rest ih =>
    simp only [Canvas.drawRows, ih, Canvas.drawRow, drawBits_pixel _ _ _ _ _ _ _ _ hX hY, rowsBit_cons]
    by_cases h : Y = y
    · subst h
      have h0 : rowsBit rest x (Y + 1) X Y = false := by
        simp only [rowsBit, Bool.and_eq_false_iff, decide_eq_false_iff_not]
        left
        omega
      simp [h0]
    · simp [h]

/-- A drawn sprite collides iff one of its set bits inside the grid found its cell at 1 (R195). -/
theorem drawRows_collision (rows : List Byte) (c : Canvas) (x y : Nat) :
    (c.drawRows x y rows).collision = true ↔
      c.collision = true ∨ ∃ X Y, X < 64 ∧ Y < 32 ∧ rowsBit rows x y X Y = true ∧
        Display.pixel c.disp X Y = true := by
  induction rows generalizing c y with
  | nil =>
    simp only [Canvas.drawRows]
    constructor
    · exact .inl
    · rintro (h | ⟨X, Y, -, -, h, -⟩)
      · exact h
      · simp [rowsBit] at h
  | cons b rest ih =>
    simp only [Canvas.drawRows, ih, Canvas.drawRow, drawBits_collision, rowsBit_cons, Nat.add_zero]
    constructor
    · rintro ((h | ⟨X, h1, h2, h3, h4, h5, h6⟩) | ⟨X, Y, h1, h2, h3, h4⟩)
      · exact .inl h
      · exact .inr ⟨X, y, h3, h4, by simp [h1, h2, h5], h6⟩
      · have hlt : y < Y := by
          simp only [rowsBit, Bool.and_eq_true, decide_eq_true_eq] at h3
          omega
        have hne : Y ≠ y := by omega
        refine .inr ⟨X, Y, h1, h2, by rw [if_neg hne]; exact h3, ?_⟩
        rw [drawBits_pixel _ _ _ _ _ _ _ _ h1 h2] at h4
        simpa [hne] using h4
    · rintro (h | ⟨X, Y, h1, h2, h3, h4⟩)
      · exact .inl (.inl h)
      · by_cases hY : Y = y
        · subst hY
          rw [if_pos rfl, decide_eq_true_eq] at h3
          exact .inl (.inr ⟨X, h3.1, h3.2.1, h1, h2, h3.2.2, h4⟩)
        · rw [if_neg hY] at h3
          refine .inr ⟨X, Y, h1, h2, h3, ?_⟩
          rw [drawBits_pixel _ _ _ _ _ _ _ _ h1 h2]
          simpa [hY] using h4

/-- Two displays with the same cells are the same display. -/
theorem display_ext {d e : Display} (h : ∀ X Y, X < 64 → Y < 32 → Display.pixel d X Y = Display.pixel e X Y) :
    d = e := by
  apply Vector.ext
  intro Y hY
  apply BitVec.eq_of_getLsbD_eq
  intro X hX
  have := h X Y hX hY
  simpa [Display.pixel, Display.row, hY] using this

end Sys2Proof.Machine
end

