-- ==== Sys2Proof/Laws/Interface.lean ====
section
/-! SUPPORT. What the host's operations and a schedule of them can do, said once. -/

namespace Sys2Proof.Machine

@[simp] theorem runSchedule_nil (s : State) : runSchedule [] s = s := rfl

@[simp] theorem runSchedule_cons (op : Operation) (rest : List Operation) (s : State) :
    runSchedule (op :: rest) s = runSchedule rest (perform op s).2 := rfl

/-- A schedule is performed one part after the other (R60). -/
theorem runSchedule_append (a b : List Operation) (s : State) :
    runSchedule (a ++ b) s = runSchedule b (runSchedule a s) := by
  induction a generalizing s with
  | nil => rfl
  | cons op rest ih => exact ih _

/-- Induction over a schedule, packaged once: what every operation keeps, every schedule keeps. -/
theorem runSchedule_keeps {P : State → Prop} {ops : List Operation}
    (step : ∀ op ∈ ops, ∀ s, P s → P (perform op s).2) {s : State} (h : P s) : P (runSchedule ops s) := by
  induction ops generalizing s with
  | nil => exact h
  | cons op rest ih =>
    exact ih (fun o ho => step o (by simp [ho])) (step op (by simp) s h)

/-- A rejected key index changes nothing (R235, R243). -/
theorem setKey_invalid {index : Int} (h : ¬(0 ≤ index ∧ index ≤ 15)) (pressed : Bool) (s : State) :
    setKey index pressed s = (.invalidKeyIndex, s) := by
  simp [setKey, h]

/-- A key update is the key's new state and, on a press, the resolution of a wait (R243, R244). -/
theorem setKey_valid {index : Int} (h : 0 ≤ index ∧ index ≤ 15) (pressed : Bool) (s : State) :
    setKey index pressed s =
      (.ok,
        if pressed then
          resolveWait (BitVec.ofNat 8 index.toNat) { s with keys := s.keys.setIfInBounds index.toNat pressed }
        else { s with keys := s.keys.setIfInBounds index.toNat pressed }) := by
  simp [setKey, h]

theorem resolveWait_none {s : State} (h : s.wait = none) (k : Byte) : resolveWait k s = s := by
  simp [resolveWait, h]

theorem resolveWait_some {s : State} {r : Reg} (h : s.wait = some r) (k : Byte) :
    resolveWait k s = { (s.setReg r k).advance with wait := none } := by
  simp [resolveWait, h]

theorem loadProgram_fits {bytes : List Byte} (h : bytes.length ≤ 3584) (s : State) :
    loadProgram bytes s = (.ok, { s with mem := Memory.writeBlock s.mem Config.programBase bytes }) := by
  simp [loadProgram, Config.maxProgramLength, h]

theorem loadProgram_tooLarge {bytes : List Byte} (h : 3584 < bytes.length) (s : State) :
    loadProgram bytes s = (.programTooLarge, s) := by
  simp [loadProgram, Config.maxProgramLength, Nat.not_le.2 h]

/-! ## The diagnostic snapshot, field by field (R38, R233, R248) -/

@[simp] theorem diagnosticSnapshot_display (s : State) : (diagnosticSnapshot s).display = displaySnapshot s := by
  simp only [diagnosticSnapshot]
@[simp] theorem diagnosticSnapshot_registers (s : State) : (diagnosticSnapshot s).registers = registerSnapshot s := rfl
@[simp] theorem diagnosticSnapshot_fault (s : State) : (diagnosticSnapshot s).fault = s.halt := rfl

end Sys2Proof.Machine
end

