-- ==== Sys2Proof/Laws/Decode.lean ====
section
/-! SUPPORT. The fields of a word and the encodings as numbers, and the fields of an encoded word. -/

namespace Sys2Proof

/-! ### Fields and encodings as numbers -/

theorem opField_toNat (w : Word) : (opField w).toNat = w.toNat / 4096 := by
  have := w.isLt
  simp [opField, Nat.shiftRight_eq_div_pow]
  omega

theorem xField_val (w : Word) : (xField w).val = w.toNat / 256 % 16 := by
  simp [xField, Nat.shiftRight_eq_div_pow]

theorem yField_val (w : Word) : (yField w).val = w.toNat / 16 % 16 := by
  simp [yField, Nat.shiftRight_eq_div_pow]

theorem nField_val (w : Word) : (nField w).val = w.toNat % 16 := by
  simp [nField]

theorem lowNibble_toNat (w : Word) : (w.extractLsb' 0 4).toNat = w.toNat % 16 := by
  simp

theorem kkField_toNat (w : Word) : (kkField w).toNat = w.toNat % 256 := by
  simp [kkField]

theorem nnnField_toNat (w : Word) : (nnnField w).toNat = w.toNat % 4096 := by
  simp [nnnField]

theorem append_toNat {m n : Nat} (a : BitVec m) (b : BitVec n) : (a ++ b).toNat = a.toNat * 2 ^ n + b.toNat := by
  rw [BitVec.toNat_append, ← Nat.shiftLeft_add_eq_or_of_lt b.isLt, Nat.shiftLeft_eq]

theorem encodeNnn_toNat (op : BitVec 4) (nnn : Addr12) :
    (encodeNnn op nnn).toNat = op.toNat * 4096 + nnn.toNat := append_toNat op nnn

theorem encodeXkk_toNat (op : BitVec 4) (x : Reg) (kk : Byte) :
    (encodeXkk op x kk).toNat = op.toNat * 4096 + x.val * 256 + kk.toNat := by
  simp only [encodeXkk, append_toNat, BitVec.toNat_ofFin]
  omega

theorem encodeXyn_toNat (op : BitVec 4) (x y : Reg) (n : Fin 16) :
    (encodeXyn op x y n).toNat = op.toNat * 4096 + x.val * 256 + y.val * 16 + n.val := by
  simp only [encodeXyn, append_toNat, BitVec.toNat_ofFin]
  omega

/-! ### The fields of an encoded word -/

theorem opField_encodeNnn (op : BitVec 4) (nnn : Addr12) : opField (encodeNnn op nnn) = op := by
  have := nnn.isLt
  apply BitVec.eq_of_toNat_eq
  rw [opField_toNat, encodeNnn_toNat]
  omega

theorem nnnField_encodeNnn (op : BitVec 4) (nnn : Addr12) : nnnField (encodeNnn op nnn) = nnn := by
  have := nnn.isLt
  apply BitVec.eq_of_toNat_eq
  rw [nnnField_toNat, encodeNnn_toNat]
  omega

theorem opField_encodeXkk (op : BitVec 4) (x : Reg) (kk : Byte) : opField (encodeXkk op x kk) = op := by
  have := kk.isLt
  apply BitVec.eq_of_toNat_eq
  rw [opField_toNat, encodeXkk_toNat]
  omega

theorem xField_encodeXkk (op : BitVec 4) (x : Reg) (kk : Byte) : xField (encodeXkk op x kk) = x := by
  have := kk.isLt
  apply Fin.ext
  rw [xField_val, encodeXkk_toNat]
  omega

theorem kkField_encodeXkk (op : BitVec 4) (x : Reg) (kk : Byte) : kkField (encodeXkk op x kk) = kk := by
  have := kk.isLt
  apply BitVec.eq_of_toNat_eq
  rw [kkField_toNat, encodeXkk_toNat]
  omega

theorem opField_encodeXyn (op : BitVec 4) (x y : Reg) (n : Fin 16) : opField (encodeXyn op x y n) = op := by
  apply BitVec.eq_of_toNat_eq
  rw [opField_toNat, encodeXyn_toNat]
  omega

theorem xField_encodeXyn (op : BitVec 4) (x y : Reg) (n : Fin 16) : xField (encodeXyn op x y n) = x := by
  apply Fin.ext
  rw [xField_val, encodeXyn_toNat]
  omega

theorem yField_encodeXyn (op : BitVec 4) (x y : Reg) (n : Fin 16) : yField (encodeXyn op x y n) = y := by
  apply Fin.ext
  rw [yField_val, encodeXyn_toNat]
  omega

theorem nField_encodeXyn (op : BitVec 4) (x y : Reg) (n : Fin 16) : nField (encodeXyn op x y n) = n := by
  apply Fin.ext
  rw [nField_val, encodeXyn_toNat]
  omega

theorem lowNibble_encodeXyn (op : BitVec 4) (x y : Reg) (n : Fin 16) :
    (encodeXyn op x y n).extractLsb' 0 4 = BitVec.ofFin n := by
  apply BitVec.eq_of_toNat_eq
  have h : (BitVec.ofFin n : BitVec 4).toNat = n.val := rfl
  rw [lowNibble_toNat, encodeXyn_toNat]
  omega

end Sys2Proof
end

