-- ==== Sys2Proof/Laws/PerInstr.lean ====
section
/-! SUPPORT. Facts of every instruction as syntax, one lemma per constructor: the encoded word lies in its own row of
the opcode map. -/

namespace Sys2Proof.Laws

/-- Format NNN against its mask: only the top nibble is fixed (R74). -/
theorem nnn_and_mask (op : BitVec 4) (nnn : Addr12) :
    encodeNnn op nnn &&& 0xF000#16 = op ++ 0#12 := by
  have h : (op ++ nnn) &&& (0xF#4 ++ 0x000#12) = op ++ 0#12 := by
    simp only [BitVec.and_append]
    congr 1
    · exact BitVec.and_allOnes
    · exact BitVec.and_zero
  exact h

/-- Format XKK against its mask: only the top nibble is fixed (R74). -/
theorem xkk_and_mask (op : BitVec 4) (x : Reg) (kk : Byte) :
    encodeXkk op x kk &&& 0xF000#16 = op ++ 0#4 ++ 0#8 := by
  have h : (op ++ (BitVec.ofFin x : BitVec 4) ++ kk) &&& (0xF#4 ++ 0x0#4 ++ 0x00#8) = op ++ 0#4 ++ 0#8 := by
    simp only [BitVec.and_append]
    congr 1
    · congr 1
      · exact BitVec.and_allOnes
      · exact BitVec.and_zero
    · exact BitVec.and_zero
  exact h

/-- Format X against its mask: the top nibble and the low byte are fixed (R74). -/
theorem x_and_mask (op : BitVec 4) (x : Reg) (kk : Byte) :
    encodeXkk op x kk &&& 0xF0FF#16 = op ++ 0#4 ++ kk := by
  have h : (op ++ (BitVec.ofFin x : BitVec 4) ++ kk) &&& (0xF#4 ++ 0x0#4 ++ 0xFF#8) = op ++ 0#4 ++ kk := by
    simp only [BitVec.and_append]
    congr 1
    · congr 1
      · exact BitVec.and_allOnes
      · exact BitVec.and_zero
    · exact BitVec.and_allOnes
  exact h

/-- Format XY against its mask: the top nibble and the low nibble are fixed (R74). -/
theorem xy_and_mask (op : BitVec 4) (x y n : Fin 16) :
    encodeXyn op x y n &&& 0xF00F#16 = op ++ 0#4 ++ 0#4 ++ (BitVec.ofFin n : BitVec 4) := by
  have h : (op ++ (BitVec.ofFin x : BitVec 4) ++ (BitVec.ofFin y : BitVec 4) ++ (BitVec.ofFin n : BitVec 4)) &&& (0xF#4 ++ 0x0#4 ++ 0x0#4 ++ 0xF#4) = op ++ 0#4 ++ 0#4 ++ (BitVec.ofFin n : BitVec 4) := by
    simp only [BitVec.and_append]
    congr 1
    · congr 1
      · congr 1
        · exact BitVec.and_allOnes
        · exact BitVec.and_zero
      · exact BitVec.and_zero
    · exact BitVec.and_allOnes
  exact h

/-- Format XYN against its mask: only the top nibble is fixed (R74). -/
theorem xyn_and_mask (op : BitVec 4) (x y n : Fin 16) :
    encodeXyn op x y n &&& 0xF000#16 = op ++ 0#4 ++ 0#4 ++ 0#4 := by
  have h : (op ++ (BitVec.ofFin x : BitVec 4) ++ (BitVec.ofFin y : BitVec 4) ++ (BitVec.ofFin n : BitVec 4)) &&& (0xF#4 ++ 0x0#4 ++ 0x0#4 ++ 0x0#4) = op ++ 0#4 ++ 0#4 ++ 0#4 := by
    simp only [BitVec.and_append]
    congr 1
    · congr 1
      · congr 1
        · exact BitVec.and_allOnes
        · exact BitVec.and_zero
      · exact BitVec.and_zero
    · exact BitVec.and_zero
  exact h

namespace EncodedRow

/-- The word of an instruction matches the row of its own constructor in the opcode map (R76). -/
def Statement (i : Instr) : Prop := i.row.covers (encode i) = true ∧ i.row ∈ opcodeMap

/-- It is enough that the word meets the row's mask and that some listed instruction has the same row. -/
theorem of_and {i : Instr} (j : Instr) (hj : j ∈ Instr.samples) (hr : j.row = i.row)
    (h : encode i &&& i.row.mask = i.row.pattern) : Statement i :=
  ⟨beq_iff_eq.2 h, List.mem_map.2 ⟨j, hj, hr⟩⟩

theorem cls : Statement .cls :=
  of_and .cls (by decide) rfl rfl
theorem ret : Statement .ret :=
  of_and .ret (by decide) rfl rfl
theorem jp (nnn : Addr12) : Statement (.jp nnn) :=
  of_and (.jp 0) (by decide) rfl (nnn_and_mask 0x1 nnn)
theorem call (nnn : Addr12) : Statement (.call nnn) :=
  of_and (.call 0) (by decide) rfl (nnn_and_mask 0x2 nnn)
theorem seImm (x : Reg) (kk : Byte) : Statement (.seImm x kk) :=
  of_and (.seImm 0 0) (by decide) rfl (xkk_and_mask 0x3 x kk)
theorem sneImm (x : Reg) (kk : Byte) : Statement (.sneImm x kk) :=
  of_and (.sneImm 0 0) (by decide) rfl (xkk_and_mask 0x4 x kk)
theorem seReg (x y : Reg) : Statement (.seReg x y) :=
  of_and (.seReg 0 0) (by decide) rfl (xy_and_mask 0x5 x y 0x0)
theorem ldImm (x : Reg) (kk : Byte) : Statement (.ldImm x kk) :=
  of_and (.ldImm 0 0) (by decide) rfl (xkk_and_mask 0x6 x kk)
theorem addImm (x : Reg) (kk : Byte) : Statement (.addImm x kk) :=
  of_and (.addImm 0 0) (by decide) rfl (xkk_and_mask 0x7 x kk)
theorem ldReg (x y : Reg) : Statement (.ldReg x y) :=
  of_and (.ldReg 0 0) (by decide) rfl (xy_and_mask 0x8 x y 0x0)
theorem orReg (x y : Reg) : Statement (.orReg x y) :=
  of_and (.orReg 0 0) (by decide) rfl (xy_and_mask 0x8 x y 0x1)
theorem andReg (x y : Reg) : Statement (.andReg x y) :=
  of_and (.andReg 0 0) (by decide) rfl (xy_and_mask 0x8 x y 0x2)
theorem xorReg (x y : Reg) : Statement (.xorReg x y) :=
  of_and (.xorReg 0 0) (by decide) rfl (xy_and_mask 0x8 x y 0x3)
theorem addReg (x y : Reg) : Statement (.addReg x y) :=
  of_and (.addReg 0 0) (by decide) rfl (xy_and_mask 0x8 x y 0x4)
theorem sub (x y : Reg) : Statement (.sub x y) :=
  of_and (.sub 0 0) (by decide) rfl (xy_and_mask 0x8 x y 0x5)
theorem shr (x y : Reg) : Statement (.shr x y) :=
  of_and (.shr 0 0) (by decide) rfl (xy_and_mask 0x8 x y 0x6)
theorem subn (x y : Reg) : Statement (.subn x y) :=
  of_and (.subn 0 0) (by decide) rfl (xy_and_mask 0x8 x y 0x7)
theorem shl (x y : Reg) : Statement (.shl x y) :=
  of_and (.shl 0 0) (by decide) rfl (xy_and_mask 0x8 x y 0xE)
theorem sneReg (x y : Reg) : Statement (.sneReg x y) :=
  of_and (.sneReg 0 0) (by decide) rfl (xy_and_mask 0x9 x y 0x0)
theorem ldI (nnn : Addr12) : Statement (.ldI nnn) :=
  of_and (.ldI 0) (by decide) rfl (nnn_and_mask 0xA nnn)
theorem jpV0 (nnn : Addr12) : Statement (.jpV0 nnn) :=
  of_and (.jpV0 0) (by decide) rfl (nnn_and_mask 0xB nnn)
theorem rnd (x : Reg) (kk : Byte) : Statement (.rnd x kk) :=
  of_and (.rnd 0 0) (by decide) rfl (xkk_and_mask 0xC x kk)
theorem drw (x y : Reg) (n : Fin 16) : Statement (.drw x y n) :=
  of_and (.drw 0 0 0) (by decide) rfl (xyn_and_mask 0xD x y n)
theorem skp (x : Reg) : Statement (.skp x) :=
  of_and (.skp 0) (by decide) rfl (x_and_mask 0xE x 0x9E)
theorem sknp (x : Reg) : Statement (.sknp x) :=
  of_and (.sknp 0) (by decide) rfl (x_and_mask 0xE x 0xA1)
theorem ldVDt (x : Reg) : Statement (.ldVDt x) :=
  of_and (.ldVDt 0) (by decide) rfl (x_and_mask 0xF x 0x07)
theorem ldVK (x : Reg) : Statement (.ldVK x) :=
  of_and (.ldVK 0) (by decide) rfl (x_and_mask 0xF x 0x0A)
theorem ldDtV (x : Reg) : Statement (.ldDtV x) :=
  of_and (.ldDtV 0) (by decide) rfl (x_and_mask 0xF x 0x15)
theorem ldStV (x : Reg) : Statement (.ldStV x) :=
  of_and (.ldStV 0) (by decide) rfl (x_and_mask 0xF x 0x18)
theorem addI (x : Reg) : Statement (.addI x) :=
  of_and (.addI 0) (by decide) rfl (x_and_mask 0xF x 0x1E)
theorem ldF (x : Reg) : Statement (.ldF x) :=
  of_and (.ldF 0) (by decide) rfl (x_and_mask 0xF x 0x29)
theorem ldB (x : Reg) : Statement (.ldB x) :=
  of_and (.ldB 0) (by decide) rfl (x_and_mask 0xF x 0x33)
theorem ldMemV (x : Reg) : Statement (.ldMemV x) :=
  of_and (.ldMemV 0) (by decide) rfl (x_and_mask 0xF x 0x55)
theorem ldVMem (x : Reg) : Statement (.ldVMem x) :=
  of_and (.ldVMem 0) (by decide) rfl (x_and_mask 0xF x 0x65)

end EncodedRow

end Sys2Proof.Laws
end

