-- ==== Sys2Proof/Safety.lean ====
section
/-! DEFINITION. The terms claims use: the parts of the state and what it means to leave one alone, the invariant of
every reachable state, and a safe run. -/

namespace Sys2Proof.Machine

/-! ## Frames -/

/-- The parts of the state (R34) other than PC. -/
inductive Part where
  | registers
  | index
  | stack
  | delay
  | sound
  | memory
  | display
  | keys
  | wait
  | halt
  | draws
  deriving DecidableEq, Repr

/-- A part reads the same in two states: every register, every byte of memory, every display cell, every stack slot
and SP, every key. -/
def Part.same (p : Part) (s t : State) : Prop :=
  match p with
  | .registers => ∀ r : Reg, t.reg r = s.reg r
  | .index => t.i = s.i
  | .stack => t.sp = s.sp ∧ ∀ k : Fin 16, t.stack[k] = s.stack[k]
  | .delay => t.dt = s.dt
  | .sound => t.st = s.st
  | .memory => ∀ a : Nat, Memory.read t.mem a = Memory.read s.mem a
  | .display => ∀ x y : Nat, Display.pixel t.disp x y = Display.pixel s.disp x y
  | .keys => ∀ k : Fin 16, t.keys[k] = s.keys[k]
  | .wait => t.wait = s.wait
  | .halt => t.halt = s.halt
  | .draws => t.draws = s.draws

/-- Every part but the named ones reads the same. PC is no part: a claim says what it becomes. -/
def sameBut (changed : List Part) (s t : State) : Prop := ∀ p, p ∉ changed → p.same s t

/-- Every register but the named ones reads the same. -/
def registersBut (changed : List Reg) (s t : State) : Prop := ∀ r, r ∉ changed → t.reg r = s.reg r

/-! ## Sprites -/

/-- The bit of the sprite of `Dxyn` at column `X`, row `Y` of the grid: row `r` of the sprite is the byte at I + r,
drawn on row Vy + r (R192), and its bit 7 is column Vx + 0 (R193, D10). -/
def spriteBit (s : State) (x y : Reg) (n : Fin 16) (X Y : Nat) : Bool :=
  decide ((s.reg x).toNat ≤ X ∧ X < (s.reg x).toNat + 8 ∧ (s.reg y).toNat ≤ Y ∧ Y < (s.reg y).toNat + n.val) &&
    (Memory.read s.mem (s.i.toNat + (Y - (s.reg y).toNat))).getLsbD (7 - (X - (s.reg x).toNat))

/-! ## The invariant -/

/-- What holds of every state a run from reset can reach. -/
structure State.Inv (s : State) : Prop where
  /-- Memory keeps its canonical form. -/
  memory : Memory.wf s.mem
  /-- PC never exceeds 0x10FE (R24). -/
  pcBound : s.pc.toNat ≤ 0x10FE
  /-- Every slot in use was written by a call, so it holds an address that can be fetched from (R120, R122). -/
  stackBound : ∀ k : Fin 16, k.val < s.sp.val → s.stack[k].toNat ≤ Config.lastFetchAddress
  /-- `wait` and `halt` are never both set (R244). -/
  notBoth : s.wait = none ∨ s.halt = none
  /-- A waiting core stands at the await-key instruction it has fetched (R216). -/
  waitBound : s.wait ≠ none → s.pc.toNat ≤ Config.lastFetchAddress
  /-- PC stays at the faulting instruction, which the record names (R231, R234). -/
  haltPc : ∀ r, s.halt = some r → r.pc = s.pc

/-! ## Safe runs -/

/-- The core can execute: neither halted nor waiting (R100). -/
def State.running (s : State) : Bool := s.halt.isNone && s.wait.isNone

/-- A schedule is safe from a state when no operation of it leaves the core halted (R231). -/
def safeSchedule (ops : List Operation) (s : State) : Prop :=
  ∀ k, k ≤ ops.length → (runSchedule (ops.take k) s).halt = none

end Sys2Proof.Machine
end

