-- ==== Sys2Proof/Certificates/Slice0/Obligations.lean ====
section
/-! DEFINITION. The statements about the model. Each docstring names the rules of spec/ it formalises and, where a
clause rests on a decision of the spec (D numbers, 92_eei_decisions.md) or of the model, that decision. -/

open Sys2Proof Sys2Proof.Machine

/-! ## Encoding -/

/-- The decoder inverts the encoder (30_encoding.md, R76 and R93; the patterns are decision D2): for every instruction,
with every operand at every value its field admits, the word, its two big-endian bytes with anything after them, and the
table word decode to the instruction. -/
def Obligations.DecodeOfEncodeIsTheInstruction : Prop :=
  ∀ (i : Instr) (rest : List Byte),
    decode (encode i) = .instruction i ∧
    decodeBytes (bytesOfWord (encode i) ++ rest) = .word (.instruction i) ∧
    decodeTableWord 16 (encode i).toNat = some i

/-- The encoder inverts the decoder (30_encoding.md): a word that decodes to an instruction is that instruction's word,
so no bit of a recognized word is dropped, the unused `y` field of the shifts included. -/
def Obligations.EncodeOfDecodeIsTheWord : Prop :=
  ∀ (w : Word) (i : Instr), decode w = .instruction i → encode i = w

/-- The decoder of R93 and the opcode map of R76 agree (30_encoding.md; patterns D2): a word decodes to an instruction
iff it matches a row, the row is that of the instruction, and every other word is unrecognized. -/
def Obligations.DecoderAcceptsExactlyTheOpcodeMap : Prop :=
  ∀ w : Word,
    (wordWellFormed w = true → ∃ i, decode w = .instruction i ∧ i.row.covers w = true) ∧
    (wordWellFormed w = false → decode w = .unknown w)

/-- No word matches two rows of the opcode map (30_encoding.md, R76). -/
def Obligations.OpcodeRowsAreDisjoint : Prop :=
  ∀ (w : Word) (r r' : OpcodeRow), r ∈ opcodeMap → r' ∈ opcodeMap → r.covers w = true → r'.covers w = true → r = r'

/-- The unrecognized words are exactly those of the table of R90 (30_encoding.md; `0nnn` is D3, `5xyn` and `9xyn` are
D4, the patterns D2). The fields are read as numbers: the top nibble is `w / 4096`, the low nibble `w mod 16`, the low
byte `w mod 256`. -/
def Obligations.UnrecognizedWordsAreThoseListed : Prop :=
  ∀ w : Word,
    decode w = .unknown w ↔
      (w.toNat / 4096 = 0x0 ∧ w ≠ 0x00E0 ∧ w ≠ 0x00EE) ∨
      (w.toNat / 4096 = 0x5 ∧ w.toNat % 16 ≠ 0) ∨
      (w.toNat / 4096 = 0x8 ∧ w.toNat % 16 ∈ [0x8, 0x9, 0xA, 0xB, 0xC, 0xD, 0xF]) ∨
      (w.toNat / 4096 = 0x9 ∧ w.toNat % 16 ≠ 0) ∨
      (w.toNat / 4096 = 0xE ∧ w.toNat % 256 ∉ [0x9E, 0xA1]) ∨
      (w.toNat / 4096 = 0xF ∧ w.toNat % 256 ∉ [0x07, 0x0A, 0x15, 0x18, 0x1E, 0x29, 0x33, 0x55, 0x65])

/-- The fields of R71, read as numbers. -/
def Obligations.FieldsStandWhereTheRuleSays : Prop :=
  ∀ w : Word,
    (opField w).toNat = w.toNat / 2 ^ 12 ∧
    (xField w).val = w.toNat / 2 ^ 8 % 2 ^ 4 ∧
    (yField w).val = w.toNat / 2 ^ 4 % 2 ^ 4 ∧
    (nField w).val = w.toNat % 2 ^ 4 ∧
    (kkField w).toNat = w.toNat % 2 ^ 8 ∧
    (nnnField w).toNat = w.toNat % 2 ^ 12

/-- A few words written out from the encodings of R76, at least one of each family, decode to their instructions
(patterns D2; `0xA2F0` is the source's own example). A sanity statement. -/
def Obligations.SampleWordsDecode : Prop :=
  decode 0b0000000011101110 = .instruction .ret ∧
  decode 0b0010001000001010 = .instruction (.call 0x20A) ∧
  decode 0b1000001101010111 = .instruction (.subn 3 5) ∧
  decode 0b1010001011110000 = .instruction (.ldI 0x2F0) ∧
  decode 0b1101000100100101 = .instruction (.drw 1 2 5) ∧
  decode 0b1111001001010101 = .instruction (.ldMemV 2) ∧
  decode 0b1110011110100001 = .instruction (.sknp 7) ∧
  decode 0b1111101100000111 = .instruction (.ldVDt 0xB) ∧
  decode 0b0101000100100001 = .unknown 0x5121

/-! ## The step -/

/-- Fetch is big-endian (R53): with PC and PC + 1 in memory, the word read has the byte at PC as bits 15 to 8 and the byte at
PC + 1 as bits 7 to 0. -/
def Obligations.FetchIsBigEndian : Prop :=
  ∀ s : State, s.pc.toNat + 1 < 4096 →
    ∃ w, fetch s = some w ∧
      w.toNat = 256 * (Memory.read s.mem s.pc.toNat).toNat + (Memory.read s.mem (s.pc.toNat + 1)).toNat

/-- A step runs the decoded instruction (40_step.md, R102 and R104): on a core that is neither halted nor waiting, with
PC at most 0xFFE, a step is `exec` of the instruction that the two bytes at PC decode to, at that very state, so the
fetch changes no state (PC is the instruction's own address, R101); and if they decode to none, the step raises
`UnknownInstruction`. That the record holds the PC and the word and that nothing else changes is the spec's decision D13
(log entry 13); that raising a fault is a next state is log entry 4. -/
def Obligations.StepRunsTheDecodedInstruction : Prop :=
  ∀ (s : State) (w : Word), s.halt = none → s.wait = none → s.pc.toNat ≤ 0xFFE →
    w.toNat = 256 * (Memory.read s.mem s.pc.toNat).toNat + (Memory.read s.mem (s.pc.toNat + 1)).toNat →
    (∀ i, decode w = .instruction i → step s = exec i s) ∧
    (decode w = .unknown w →
      step s = .next { s with halt := some { pc := s.pc, cause := .unknownInstruction w } } ∧
      stepResult s = some (.fault .unknownInstruction))

/-- An instruction placed where the step fetches is the one that runs: in every state, the step after `withFetchWord` of
an encoded instruction is `exec` of it (the model's own loader, log entry 8); on a core that runs and can fetch, placing
it changes no byte but the two at PC and no other state. -/
def Obligations.PlacedInstructionRunsNext : Prop :=
  ∀ (s : State) (i : Instr),
    step (s.withFetchWord 16 (encode i).toNat) = exec i (s.withFetchWord 16 (encode i).toNat) ∧
    (s.halt = none → s.wait = none → s.pc.toNat ≤ 0xFFE →
      (s.withFetchWord 16 (encode i).toNat).pc = s.pc ∧
      sameBut [.memory] s (s.withFetchWord 16 (encode i).toNat) ∧
      ∀ a, a ≠ s.pc.toNat → a ≠ s.pc.toNat + 1 →
        Memory.read (s.withFetchWord 16 (encode i).toNat).mem a = Memory.read s.mem a)

/-- A halted step is rejected with the recorded kind and leaves the state as it is (40_step.md, R100; that it returns
the kind is D22; that the model's outcome is a fault is log entry 4). -/
def Obligations.HaltedStepIsRejected : Prop :=
  ∀ (s : State) (r : FaultRecord), s.halt = some r →
    step s = .fault r.kind ∧ perform .step s = (.result (some (.fault r.kind)), s)

/-- A waiting step changes nothing and returns `AwaitingKey(x)` (R31, R100), before any fetch, whatever the bytes at PC
are. -/
def Obligations.WaitingStepHolds : Prop :=
  ∀ (s : State) (x : Reg), s.halt = none → s.wait = some x →
    step s = .next s ∧ perform .step s = (.result (some (.awaitingKey x)), s)

/-- A fetch past memory faults (40_step.md, R103; decision D14), with the address `max(PC, 0x1000)` in the record, and
changes nothing else. -/
def Obligations.FetchPastMemoryFaults : Prop :=
  ∀ s : State, s.halt = none → s.wait = none → 0xFFE < s.pc.toNat →
    step s = .next { s with halt := some { pc := s.pc, cause := .memoryOutOfBounds (BitVec.ofNat 16 (max s.pc.toNat 0x1000)) } } ∧
    stepResult s = some (.fault .memoryOutOfBounds)

/-- The step is total (40_step.md, R109): it is never refused, it is a fault only on a halted core, and from every state
it returns one of the four results of R106. -/
def Obligations.StepIsTotal : Prop :=
  ∀ s : State,
    (∀ r, step s ≠ .refused r) ∧
    (∀ k, step s = .fault k → ∃ r, s.halt = some r ∧ r.kind = k) ∧
    ∃ r, stepResult s = some r

/-- The result of a step that executes an instruction (40_step.md, R106): the fault's kind when it raises one,
`DisplayChanged` for clear display and draw, `AwaitingKey(x)` for await-key, `Continue` for every other. -/
def Obligations.StepReturnsTheResultOfItsInstruction : Prop :=
  ∀ (s t : State) (w : Word) (i : Instr), s.halt = none → s.wait = none → fetch s = some w → decode w = .instruction i →
    step s = .next t →
    (∀ r, t.halt = some r → stepResult s = some (.fault r.kind)) ∧
    (t.halt = none →
      (i = .cls → stepResult s = some .displayChanged) ∧
      (∀ x y n, i = .drw x y n → stepResult s = some .displayChanged) ∧
      (∀ x, i = .ldVK x → stepResult s = some (.awaitingKey x)) ∧
      (i ≠ .cls → (∀ x y n, i ≠ .drw x y n) → (∀ x, i ≠ .ldVK x) → stepResult s = some .continue))

/-! ## Faults -/

/-- A fault writes `halt` and nothing else, and the step returns its kind (60_exceptions.md, R231 and R232; decision
D13): a step that leaves a core halted that was not has changed no register, byte, cell, timer, slot, key or PC, and the
record names the PC. -/
def Obligations.FaultChangesOnlyTheHaltRecord : Prop :=
  ∀ (s t : State) (r : FaultRecord), s.halt = none → step s = .next t → t.halt = some r →
    t = { s with halt := some r } ∧ r.pc = s.pc ∧ stepResult s = some (.fault r.kind)

/-- Exactly when each instruction faults, and with what record (60_exceptions.md, R230; the address is R55's,
KeyOutOfRange is D20, fault atomicity D13). Every instruction answers a next state in every state. -/
def Obligations.InstructionsFaultExactlyAsListed : Prop :=
  ∀ (i : Instr) (s : State), s.halt = none →
    ∃ t, exec i s = .next t ∧
      t.halt =
        (match i with
        | .ret => if s.sp.val = 0 then some { pc := s.pc, cause := .stackUnderflow } else none
        | .call _ => if s.sp.val = 16 then some { pc := s.pc, cause := .stackOverflow } else none
        | .drw _ _ n =>
          if 1 ≤ n.val ∧ 0xFFF < s.i.toNat + n.val - 1 then
            some { pc := s.pc, cause := .memoryOutOfBounds (BitVec.ofNat 16 (max s.i.toNat 0x1000)) } else none
        | .ldB _ =>
          if 0xFFF < s.i.toNat + 2 then
            some { pc := s.pc, cause := .memoryOutOfBounds (BitVec.ofNat 16 (max s.i.toNat 0x1000)) } else none
        | .ldMemV x =>
          if 0xFFF < s.i.toNat + x.val then
            some { pc := s.pc, cause := .memoryOutOfBounds (BitVec.ofNat 16 (max s.i.toNat 0x1000)) } else none
        | .ldVMem x =>
          if 0xFFF < s.i.toNat + x.val then
            some { pc := s.pc, cause := .memoryOutOfBounds (BitVec.ofNat 16 (max s.i.toNat 0x1000)) } else none
        | .skp x =>
          if 15 < (s.reg x).toNat then some { pc := s.pc, cause := .keyOutOfRange (s.reg x) } else none
        | .sknp x =>
          if 15 < (s.reg x).toNat then some { pc := s.pc, cause := .keyOutOfRange (s.reg x) } else none
        | _ => none)

/-- The stack pointer is never decremented below 0 or incremented above 16 (10_state.md, R26): a call with SP = 16
raises `StackOverflow`, a return with SP = 0 raises `StackUnderflow`, and SP and the stack are left unchanged. The fault
record, PC staying and every other part left unchanged are the spec's decision D13 (log entry 13); that raising a fault
is a next state is log entry 4. -/
def Obligations.StackViolationsAreFatal : Prop :=
  ∀ s : State,
    (∀ nnn, s.sp.val = 16 →
      ∃ t, exec (.call nnn) s = .next t ∧ t.halt = some { pc := s.pc, cause := .stackOverflow } ∧ t.pc = s.pc ∧
        sameBut [.halt] s t) ∧
    (s.sp.val = 0 →
      ∃ t, exec .ret s = .next t ∧ t.halt = some { pc := s.pc, cause := .stackUnderflow } ∧ t.pc = s.pc ∧
        sameBut [.halt] s t)

/-- A halt is final until reset (60_exceptions.md, R234; decision D22): whatever operations the host performs, short of
a reset, the record stays, and PC, the registers, I, the stack, the display and the draws stay as they were. That no
wait is pending is the invariant's (R244). -/
def Obligations.HaltLastsUntilReset : Prop :=
  ∀ (ops : List Operation) (s : State) (r : FaultRecord), s.halt = some r → s.wait = none → .reset ∉ ops →
    (runSchedule ops s).halt = some r ∧
    (runSchedule ops s).pc = s.pc ∧
    sameBut [.delay, .sound, .memory, .keys] s (runSchedule ops s) ∧
    step (runSchedule ops s) = .fault r.kind

/-! ## Control flow -/

/-- RET (41_control_flow.md, R120): SP - 1, PC two past the popped address, the popped slot kept; with SP = 0 it raises
`StackUnderflow` and changes nothing else. The record and the unchanged rest in the SP = 0 clause are the spec's
decision D13 (log entry 13); that raising a fault is a next state is log entry 4. -/
def Obligations.ReturnGoesTwoPastThePoppedAddress : Prop :=
  ∀ s : State,
    (∀ k : Fin 16, s.sp.val = k.val + 1 →
      ∃ t, exec .ret s = .next t ∧ t.pc = s.stack[k] + 2 ∧ t.sp.val = k.val ∧
        (∀ j : Fin 16, t.stack[j] = s.stack[j]) ∧ sameBut [.stack] s t ∧
        completionResult .ret = .continue) ∧
    (s.sp.val = 0 → exec .ret s = .next { s with halt := some { pc := s.pc, cause := .stackUnderflow } })

/-- JP and JP V0 (R121, R131): PC becomes `nnn`, or `nnn + V0` unmasked; nothing else changes. -/
def Obligations.JumpsSetThePc : Prop :=
  ∀ (s : State) (nnn : Addr12),
    (∃ t, exec (.jp nnn) s = .next t ∧ t.pc.toNat = nnn.toNat ∧ sameBut [] s t ∧
      completionResult (.jp nnn) = .continue) ∧
    (∃ t, exec (.jpV0 nnn) s = .next t ∧ t.pc.toNat = nnn.toNat + (s.reg 0).toNat ∧ sameBut [] s t ∧
      completionResult (.jpV0 nnn) = .continue)

/-- CALL (41_control_flow.md, R122): the call's own address is pushed, SP + 1, PC becomes `nnn`; with SP = 16 it raises
`StackOverflow` and changes nothing else. The record and the unchanged rest in the SP = 16 clause are the spec's
decision D13 (log entry 13); that raising a fault is a next state is log entry 4. -/
def Obligations.CallPushesItsOwnAddress : Prop :=
  ∀ (s : State) (nnn : Addr12),
    (∀ k : Fin 16, s.sp.val = k.val →
      ∃ t, exec (.call nnn) s = .next t ∧ t.pc.toNat = nnn.toNat ∧ t.sp.val = k.val + 1 ∧ t.stack[k] = s.pc ∧
        (∀ j : Fin 16, j ≠ k → t.stack[j] = s.stack[j]) ∧ sameBut [.stack] s t ∧
        completionResult (.call nnn) = .continue) ∧
    (s.sp.val = 16 → exec (.call nnn) s = .next { s with halt := some { pc := s.pc, cause := .stackOverflow } })

/-- SE Vx, byte and SNE Vx, byte (R123, R124): skip by 4 when the comparison holds, else advance by 2; nothing else
changes. -/
def Obligations.ImmediateSkipsMovePcByFourOrTwo : Prop :=
  ∀ (s : State) (x : Reg) (kk : Byte),
    (∃ t, exec (.seImm x kk) s = .next t ∧ (s.reg x = kk → t.pc = s.pc + 4) ∧ (s.reg x ≠ kk → t.pc = s.pc + 2) ∧
      sameBut [] s t ∧ completionResult (.seImm x kk) = .continue) ∧
    (∃ t, exec (.sneImm x kk) s = .next t ∧ (s.reg x ≠ kk → t.pc = s.pc + 4) ∧ (s.reg x = kk → t.pc = s.pc + 2) ∧
      sameBut [] s t ∧ completionResult (.sneImm x kk) = .continue)

/-- SE Vx, Vy and SNE Vx, Vy (41_control_flow.md, R125 and R126): skip by 4 when the comparison holds, else advance by
2; nothing else changes; and a word of either row with a nonzero low nibble is unrecognized (decision D4). -/
def Obligations.RegisterSkipsMovePcByFourOrTwo : Prop :=
  (∀ (s : State) (x y : Reg),
    (∃ t, exec (.seReg x y) s = .next t ∧ (s.reg x = s.reg y → t.pc = s.pc + 4) ∧
      (s.reg x ≠ s.reg y → t.pc = s.pc + 2) ∧ sameBut [] s t) ∧
    (∃ t, exec (.sneReg x y) s = .next t ∧ (s.reg x ≠ s.reg y → t.pc = s.pc + 4) ∧
      (s.reg x = s.reg y → t.pc = s.pc + 2) ∧ sameBut [] s t)) ∧
  (∀ w : Word, (opField w = 0x5 ∨ opField w = 0x9) → nField w ≠ 0 → decode w = .unknown w)

/-- How every instruction moves PC (40_step.md, R105): skips by 4 or 2, jumps directly, await-key not at all (the spec's
decision D21, log entry 15), every other by 2; one that faults leaves PC where it was (the spec's decision D13, log
entry 13; that raising a fault is a next state is log entry 4). -/
def Obligations.EveryInstructionMovesPcOneWay : Prop :=
  ∀ (i : Instr) (s t : State), s.halt = none → exec i s = .next t →
    (t.halt ≠ none → t.pc = s.pc) ∧
    (t.halt = none →
      match i with
      | .seImm x kk => t.pc = if s.reg x = kk then s.pc + 4 else s.pc + 2
      | .sneImm x kk => t.pc = if s.reg x ≠ kk then s.pc + 4 else s.pc + 2
      | .seReg x y => t.pc = if s.reg x = s.reg y then s.pc + 4 else s.pc + 2
      | .sneReg x y => t.pc = if s.reg x ≠ s.reg y then s.pc + 4 else s.pc + 2
      | .skp x => t.pc = if s.keyAt (s.reg x) = some true then s.pc + 4 else s.pc + 2
      | .sknp x => t.pc = if s.keyAt (s.reg x) = some false then s.pc + 4 else s.pc + 2
      | .jp nnn => t.pc.toNat = nnn.toNat
      | .call nnn => t.pc.toNat = nnn.toNat
      | .jpV0 nnn => t.pc.toNat = nnn.toNat + (s.reg 0).toNat
      | .ret => ∃ k : Fin 16, s.sp.val = k.val + 1 ∧ t.pc = s.stack[k] + 2
      | .ldVK _ => t.pc = s.pc
      | _ => t.pc = s.pc + 2)

/-- Call and return pair up (41_control_flow.md, laws of the family, derived there from R120 and R122): after a call at
address `a` with SP = s below 16, and any operations of core and host during which SP stays above s, a return executed
with SP back at s + 1 goes to a + 2, with SP = s and the slot still holding a. -/
def Obligations.CallAndReturnPairUp : Prop :=
  ∀ (s t u : State) (nnn : Addr12) (ops : List Operation) (k : Fin 16),
    s.sp.val = k.val → exec (.call nnn) s = .next t →
    (∀ m, m ≤ ops.length → k.val < (runSchedule (ops.take m) t).sp.val) →
    (runSchedule ops t).sp.val = k.val + 1 →
    exec .ret (runSchedule ops t) = .next u →
    u.pc = s.pc + 2 ∧ u.sp = s.sp ∧ u.stack[k] = s.pc

/-! ## Registers and ALU -/

/-- LD Vx, byte, LD Vx, Vy and LD Vx, DT (R140, R142, R213): Vx gets the value, PC advances by 2, nothing else changes,
and the result is `Continue`. -/
def Obligations.LoadsWriteTheirRegister : Prop :=
  ∀ (s : State) (x y : Reg) (kk : Byte),
    (∃ t, exec (.ldImm x kk) s = .next t ∧ t.reg x = kk ∧ t.pc = s.pc + 2 ∧
      registersBut [x] s t ∧ sameBut [.registers] s t ∧ completionResult (.ldImm x kk) = .continue) ∧
    (∃ t, exec (.ldReg x y) s = .next t ∧ t.reg x = s.reg y ∧ t.pc = s.pc + 2 ∧
      registersBut [x] s t ∧ sameBut [.registers] s t ∧ completionResult (.ldReg x y) = .continue) ∧
    (∃ t, exec (.ldVDt x) s = .next t ∧ t.reg x = s.dt ∧ t.pc = s.pc + 2 ∧
      registersBut [x] s t ∧ sameBut [.registers] s t ∧ completionResult (.ldVDt x) = .continue)

/-- ADD Vx, byte (R141): Vx becomes the sum mod 256; the carry is discarded and VF is not written, unless it is the
destination. -/
def Obligations.AddImmediateWrapsWithoutFlag : Prop :=
  ∀ (s : State) (x : Reg) (kk : Byte),
    ∃ t, exec (.addImm x kk) s = .next t ∧ (t.reg x).toNat = ((s.reg x).toNat + kk.toNat) % 256 ∧ t.pc = s.pc + 2 ∧
      registersBut [x] s t ∧ sameBut [.registers] s t ∧ completionResult (.addImm x kk) = .continue

/-- OR, AND and XOR (42_alu.md, R143 to R145; that VF is not written as a flag is decision D6): each bit of Vx becomes
the operation of the operands' bits; no other register changes. -/
def Obligations.LogicActsBitByBit : Prop :=
  ∀ (s : State) (x y : Reg),
    (∃ t, exec (.orReg x y) s = .next t ∧
      (∀ k, (t.reg x).getLsbD k = ((s.reg x).getLsbD k || (s.reg y).getLsbD k)) ∧ t.pc = s.pc + 2 ∧
      registersBut [x] s t ∧ sameBut [.registers] s t) ∧
    (∃ t, exec (.andReg x y) s = .next t ∧
      (∀ k, (t.reg x).getLsbD k = ((s.reg x).getLsbD k && (s.reg y).getLsbD k)) ∧ t.pc = s.pc + 2 ∧
      registersBut [x] s t ∧ sameBut [.registers] s t) ∧
    (∃ t, exec (.xorReg x y) s = .next t ∧
      (∀ k, (t.reg x).getLsbD k = ((s.reg x).getLsbD k ^^ (s.reg y).getLsbD k)) ∧ t.pc = s.pc + 2 ∧
      registersBut [x] s t ∧ sameBut [.registers] s t)

/-- ADD Vx, Vy (42_alu.md, R146 and R155): VF is 1 iff the sum exceeds 255, else 0; Vx is the sum mod 256 unless x =
0xF, where the flag survives (decision D5). -/
def Obligations.AddRegisterSumAndCarry : Prop :=
  ∀ (s : State) (x y : Reg),
    ∃ t, exec (.addReg x y) s = .next t ∧
      (x ≠ 0xF → (t.reg x).toNat = ((s.reg x).toNat + (s.reg y).toNat) % 256) ∧
      t.reg 0xF = (if (s.reg x).toNat + (s.reg y).toNat > 255 then 1 else 0) ∧ t.pc = s.pc + 2 ∧
      registersBut [x, 0xF] s t ∧ sameBut [.registers] s t

/-- SUB Vx, Vy and SUBN Vx, Vy (42_alu.md, R147 and R149): VF is 1 iff there is no borrow, equality included, else 0; Vx
is the difference mod 256 unless x = 0xF, where the flag survives (decision D5). The difference is stated as the number
that added to the subtrahend gives the minuend mod 256. -/
def Obligations.SubtractionsWrapAndFlagNoBorrow : Prop :=
  ∀ (s : State) (x y : Reg),
    (∃ t, exec (.sub x y) s = .next t ∧
      (x ≠ 0xF → ((t.reg x).toNat + (s.reg y).toNat) % 256 = (s.reg x).toNat) ∧
      t.reg 0xF = (if (s.reg x).toNat ≥ (s.reg y).toNat then 1 else 0) ∧ t.pc = s.pc + 2 ∧
      registersBut [x, 0xF] s t ∧ sameBut [.registers] s t) ∧
    (∃ t, exec (.subn x y) s = .next t ∧
      (x ≠ 0xF → ((t.reg x).toNat + (s.reg x).toNat) % 256 = (s.reg y).toNat) ∧
      t.reg 0xF = (if (s.reg y).toNat ≥ (s.reg x).toNat then 1 else 0) ∧ t.pc = s.pc + 2 ∧
      registersBut [x, 0xF] s t ∧ sameBut [.registers] s t)

/-- SHR Vx and SHL Vx (42_alu.md, R148, R150, R157): Vx moves one bit in place, whatever `y` is (decision D7), a 0 comes
in, and VF is the bit shifted out; with x = 0xF the flag survives (decision D5). -/
def Obligations.ShiftsMoveOneBitIntoTheFlag : Prop :=
  ∀ (s : State) (x y : Reg),
    (∃ t, exec (.shr x y) s = .next t ∧
      (x ≠ 0xF → (t.reg x).toNat = (s.reg x).toNat / 2) ∧
      (t.reg 0xF).toNat = (s.reg x).toNat % 2 ∧ t.pc = s.pc + 2 ∧
      registersBut [x, 0xF] s t ∧ sameBut [.registers] s t) ∧
    (∃ t, exec (.shl x y) s = .next t ∧
      (x ≠ 0xF → (t.reg x).toNat = 2 * (s.reg x).toNat % 256) ∧
      (t.reg 0xF).toNat = (s.reg x).toNat / 128 ∧ t.pc = s.pc + 2 ∧
      registersBut [x, 0xF] s t ∧ sameBut [.registers] s t)

/-- RND Vx, byte (42_alu.md, R151; that the draw is a free byte is decision D24 and log entry 1): exactly one draw is
taken, the machine's next one, whatever it is, and Vx is that byte ANDed with kk, so that bits clear in kk are clear;
nothing else changes. -/
def Obligations.RandomAndMasksOneFreeDraw : Prop :=
  ∀ (s : State) (x : Reg) (kk : Byte),
    ∃ t, exec (.rnd x kk) s = .next t ∧ t.reg x = Config.randomByte s.draws &&& kk ∧ t.draws = s.draws + 1 ∧
      (∀ k, kk.getLsbD k = false → (t.reg x).getLsbD k = false) ∧ t.pc = s.pc + 2 ∧
      registersBut [x] s t ∧ sameBut [.registers, .draws] s t

/-- The flag register (10_state.md, R21): each flag-defining instruction writes 0 or 1 to VF every time it executes
without a fault, and no other instruction changes VF unless it names VF as its destination (a block read up to VF does).
These clauses rest on decisions of the spec: the flag survives with x = 0xF (D5, log entry 11), OR, AND and XOR keep VF
(D6, log entry 12), a draw of no rows writes VF (D9, log entry 14), and Fx1E writes it on every execution (D17, log
entry 13). -/
def Obligations.FlagRegisterIsWrittenExactlyByItsInstructions : Prop :=
  ∀ (i : Instr) (s t : State), s.halt = none → exec i s = .next t → t.halt = none →
    match i with
    | .addReg _ _ => t.reg 0xF = 0 ∨ t.reg 0xF = 1
    | .sub _ _ => t.reg 0xF = 0 ∨ t.reg 0xF = 1
    | .shr _ _ => t.reg 0xF = 0 ∨ t.reg 0xF = 1
    | .subn _ _ => t.reg 0xF = 0 ∨ t.reg 0xF = 1
    | .shl _ _ => t.reg 0xF = 0 ∨ t.reg 0xF = 1
    | .drw _ _ _ => t.reg 0xF = 0 ∨ t.reg 0xF = 1
    | .addI _ => t.reg 0xF = 0 ∨ t.reg 0xF = 1
    | .ldImm x _ => x ≠ 0xF → t.reg 0xF = s.reg 0xF
    | .addImm x _ => x ≠ 0xF → t.reg 0xF = s.reg 0xF
    | .ldReg x _ => x ≠ 0xF → t.reg 0xF = s.reg 0xF
    | .orReg x _ => x ≠ 0xF → t.reg 0xF = s.reg 0xF
    | .andReg x _ => x ≠ 0xF → t.reg 0xF = s.reg 0xF
    | .xorReg x _ => x ≠ 0xF → t.reg 0xF = s.reg 0xF
    | .rnd x _ => x ≠ 0xF → t.reg 0xF = s.reg 0xF
    | .ldVDt x => x ≠ 0xF → t.reg 0xF = s.reg 0xF
    | .ldVMem x => x ≠ 0xF → t.reg 0xF = s.reg 0xF
    | _ => t.reg 0xF = s.reg 0xF

/-- Which parts of the state each instruction may write (10_state.md, the table of R22, derived there): every part the
table does not give the instruction reads the same after it, fault or not. `halt` is written by faults alone, and
`draws` (the model's own, log entry 1) by random-and alone. -/
def Obligations.InstructionsWriteOnlyTheirParts : Prop :=
  ∀ (i : Instr) (s t : State), exec i s = .next t →
    match i with
    | .cls => sameBut [.display] s t
    | .ret => sameBut [.stack, .halt] s t
    | .jp _ => sameBut [] s t
    | .call _ => sameBut [.stack, .halt] s t
    | .seImm _ _ => sameBut [] s t
    | .sneImm _ _ => sameBut [] s t
    | .seReg _ _ => sameBut [] s t
    | .sneReg _ _ => sameBut [] s t
    | .jpV0 _ => sameBut [] s t
    | .ldI _ => sameBut [.index] s t
    | .ldF _ => sameBut [.index] s t
    | .addI _ => sameBut [.index, .registers] s t ∧ registersBut [0xF] s t
    | .rnd x _ => sameBut [.registers, .draws] s t ∧ registersBut [x] s t
    | .drw _ _ _ => sameBut [.registers, .display, .halt] s t ∧ registersBut [0xF] s t
    | .skp _ => sameBut [.halt] s t
    | .sknp _ => sameBut [.halt] s t
    | .ldVK _ => sameBut [.wait] s t
    | .ldDtV _ => sameBut [.delay] s t
    | .ldStV _ => sameBut [.sound] s t
    | .ldB _ => sameBut [.memory, .halt] s t
    | .ldMemV _ => sameBut [.memory, .halt] s t
    | .ldVMem x => sameBut [.registers, .halt] s t ∧ ∀ r : Reg, x < r → t.reg r = s.reg r
    | .ldImm x _ => sameBut [.registers] s t ∧ registersBut [x] s t
    | .addImm x _ => sameBut [.registers] s t ∧ registersBut [x] s t
    | .ldReg x _ => sameBut [.registers] s t ∧ registersBut [x] s t
    | .orReg x _ => sameBut [.registers] s t ∧ registersBut [x] s t
    | .andReg x _ => sameBut [.registers] s t ∧ registersBut [x] s t
    | .xorReg x _ => sameBut [.registers] s t ∧ registersBut [x] s t
    | .ldVDt x => sameBut [.registers] s t ∧ registersBut [x] s t
    | .addReg x _ => sameBut [.registers] s t ∧ registersBut [x, 0xF] s t
    | .sub x _ => sameBut [.registers] s t ∧ registersBut [x, 0xF] s t
    | .shr x _ => sameBut [.registers] s t ∧ registersBut [x, 0xF] s t
    | .subn x _ => sameBut [.registers] s t ∧ registersBut [x, 0xF] s t
    | .shl x _ => sameBut [.registers] s t ∧ registersBut [x, 0xF] s t

/-! ## Index register and memory -/

/-- LD I, addr (R170): I becomes `nnn`, zero-extended; PC advances by 2; nothing else changes. -/
def Obligations.SetIndexLoadsTheAddress : Prop :=
  ∀ (s : State) (nnn : Addr12),
    ∃ t, exec (.ldI nnn) s = .next t ∧ t.i.toNat = nnn.toNat ∧ t.pc = s.pc + 2 ∧ sameBut [.index] s t ∧
      completionResult (.ldI nnn) = .continue

/-- LD F, Vx (43_index_memory.md, R172; that the whole Vx is used is decision D18): I becomes Vx times 5. -/
def Obligations.GlyphIndexIsFiveTimesTheValue : Prop :=
  ∀ (s : State) (x : Reg),
    ∃ t, exec (.ldF x) s = .next t ∧ t.i.toNat = 5 * (s.reg x).toNat ∧ t.pc = s.pc + 2 ∧ sameBut [.index] s t

/-- ADD I, Vx (43_index_memory.md, R171; that it never faults is decision D17, the 16-bit wrap is D16): I becomes the
sum mod 2^16, VF is 1 iff the sum exceeds 0xFFF, else 0; the addend is read before VF is written, so with x = 0xF it is
the old VF. -/
def Obligations.AddIndexNeverFaultsAndFlagsOverflow : Prop :=
  ∀ (s : State) (x : Reg),
    ∃ t, exec (.addI x) s = .next t ∧ t.i.toNat = (s.i.toNat + (s.reg x).toNat) % 65536 ∧
      t.reg 0xF = (if s.i.toNat + (s.reg x).toNat > 0xFFF then 1 else 0) ∧ t.pc = s.pc + 2 ∧
      registersBut [0xF] s t ∧ sameBut [.index, .registers] s t

/-- LD B, Vx (43_index_memory.md, R176): with I + 2 at most 0xFFF, the bytes at I, I + 1 and I + 2 read as the hundreds,
tens and units digits of Vx, every other byte reads as before, and I and everything else is unchanged; otherwise
`MemoryOutOfBounds` is raised, the record naming `max(I, 0x1000)`, and no byte is written. That I is unchanged is the
spec's decision D19, and that the fault comes before any write, with its record, is D13 (both log entry 13); that
raising a fault is a next state is log entry 4. -/
def Obligations.StoreBcdWritesThreeDigits : Prop :=
  ∀ (s : State) (x : Reg),
    (s.i.toNat + 2 ≤ 0xFFF →
      ∃ t, exec (.ldB x) s = .next t ∧
        (Memory.read t.mem s.i.toNat).toNat = (s.reg x).toNat / 100 ∧
        (Memory.read t.mem (s.i.toNat + 1)).toNat = (s.reg x).toNat / 10 % 10 ∧
        (Memory.read t.mem (s.i.toNat + 2)).toNat = (s.reg x).toNat % 10 ∧
        (∀ a, (a < s.i.toNat ∨ s.i.toNat + 2 < a) → Memory.read t.mem a = Memory.read s.mem a) ∧
        t.pc = s.pc + 2 ∧ sameBut [.memory] s t ∧ completionResult (.ldB x) = .continue) ∧
    (0xFFF < s.i.toNat + 2 →
      exec (.ldB x) s = .next { s with halt := some {
        pc := s.pc, cause := .memoryOutOfBounds (BitVec.ofNat 16 (max s.i.toNat 0x1000)) } })

/-- LD [I], Vx (43_index_memory.md, R177): with I + x at most 0xFFF, the bytes at I to I + x inclusive read as V0 to Vx,
every other byte reads as before, and I and everything else is unchanged; otherwise `MemoryOutOfBounds` is raised and no
byte is written. That I is unchanged is the spec's decision D19, and that the fault comes before any write, with its
record, is D13 (both log entry 13); that raising a fault is a next state is log entry 4. -/
def Obligations.WriteBlockCopiesThroughVx : Prop :=
  ∀ (s : State) (x : Reg),
    (s.i.toNat + x.val ≤ 0xFFF →
      ∃ t, exec (.ldMemV x) s = .next t ∧
        (∀ r : Reg, r ≤ x → Memory.read t.mem (s.i.toNat + r.val) = s.reg r) ∧
        (∀ a, (a < s.i.toNat ∨ s.i.toNat + x.val < a) → Memory.read t.mem a = Memory.read s.mem a) ∧
        t.pc = s.pc + 2 ∧ sameBut [.memory] s t ∧ completionResult (.ldMemV x) = .continue) ∧
    (0xFFF < s.i.toNat + x.val →
      exec (.ldMemV x) s = .next { s with halt := some {
        pc := s.pc, cause := .memoryOutOfBounds (BitVec.ofNat 16 (max s.i.toNat 0x1000)) } })

/-- LD Vx, [I] (43_index_memory.md, R178): with I + x at most 0xFFF, V0 to Vx become the bytes at I to I + x inclusive,
every register above Vx is unchanged, and so are I, memory and everything else; otherwise `MemoryOutOfBounds` is raised
and no register is written. That I is unchanged is the spec's decision D19, and that the fault comes before any read,
with its record, is D13 (both log entry 13); that raising a fault is a next state is log entry 4. -/
def Obligations.ReadBlockCopiesThroughVx : Prop :=
  ∀ (s : State) (x : Reg),
    (s.i.toNat + x.val ≤ 0xFFF →
      ∃ t, exec (.ldVMem x) s = .next t ∧
        (∀ r : Reg, r ≤ x → t.reg r = Memory.read s.mem (s.i.toNat + r.val)) ∧
        (∀ r : Reg, x < r → t.reg r = s.reg r) ∧
        t.pc = s.pc + 2 ∧ sameBut [.registers] s t ∧ completionResult (.ldVMem x) = .continue) ∧
    (0xFFF < s.i.toNat + x.val →
      exec (.ldVMem x) s = .next { s with halt := some {
        pc := s.pc, cause := .memoryOutOfBounds (BitVec.ofNat 16 (max s.i.toNat 0x1000)) } })

/-- A store is seen by every later fetch (20_memory.md, R64, and 70_reset_and_hazards.md, R275, derived there; decision
D25): after a block write, a fetch inside the stored range reads the registers' bytes, big-endian, and a fetch whose two
bytes both lie outside it reads what it read before. -/
def Obligations.FetchSeesTheBlockWritten : Prop :=
  ∀ (s t : State) (x : Reg), s.i.toNat + x.val ≤ 0xFFF → exec (.ldMemV x) s = .next t →
    (∀ (r r' : Reg) (p : Word), r'.val = r.val + 1 → r' ≤ x → p.toNat = s.i.toNat + r.val →
      ∃ w, fetch { t with pc := p } = some w ∧ w.toNat = 256 * (s.reg r).toNat + (s.reg r').toNat) ∧
    (∀ p : Word, (p.toNat + 1 < s.i.toNat ∨ s.i.toNat + x.val < p.toNat) →
      fetch { t with pc := p } = fetch { s with pc := p })

/-! ## Display -/

/-- CLS (R190): every cell of the grid becomes 0, the result is `DisplayChanged`, PC advances by 2, VF and everything
else is unchanged. -/
def Obligations.ClearDisplayZeroesEveryCell : Prop :=
  ∀ s : State,
    ∃ t, exec .cls s = .next t ∧ (∀ x y, Display.pixel t.disp x y = false) ∧ t.pc = s.pc + 2 ∧
      sameBut [.display] s t ∧ completionResult .cls = .displayChanged

/-- DRW Vx, Vy, nibble (44_display.md, R191 to R196; clipping is decision D8, n = 0 is D9, the bit order is D10, fault
atomicity D13): in bounds, every cell of the 64 by 32 grid is XORed with the sprite's bit there (so bits outside it are
dropped), VF is 1 iff a set bit found its cell at 1, else 0, and nothing else changes; out of bounds the fault is raised
and nothing else changes. -/
def Obligations.DrawXorsTheSpriteAndReportsCollision : Prop :=
  ∀ (s : State) (x y : Reg) (n : Fin 16),
    ((n.val = 0 ∨ s.i.toNat + n.val ≤ 0x1000) →
      ∃ t, exec (.drw x y n) s = .next t ∧
        (∀ X Y, X < 64 → Y < 32 →
          Display.pixel t.disp X Y = (Display.pixel s.disp X Y ^^ spriteBit s x y n X Y)) ∧
        ((∃ X Y, X < 64 ∧ Y < 32 ∧ spriteBit s x y n X Y = true ∧ Display.pixel s.disp X Y = true) → t.reg 0xF = 1) ∧
        ((∀ X Y, X < 64 → Y < 32 → spriteBit s x y n X Y = true → Display.pixel s.disp X Y = false) → t.reg 0xF = 0) ∧
        t.pc = s.pc + 2 ∧ registersBut [0xF] s t ∧ sameBut [.registers, .display] s t) ∧
    (¬(n.val = 0 ∨ s.i.toNat + n.val ≤ 0x1000) →
      exec (.drw x y n) s = .next { s with halt := some {
        pc := s.pc, cause := .memoryOutOfBounds (BitVec.ofNat 16 (max s.i.toNat 0x1000)) } })

/-- A draw of no rows (44_display.md, R196; decision D9) completes whatever I is: no cell changes and VF is set to 0. -/
def Obligations.DrawOfNoRowsOnlyClearsVf : Prop :=
  ∀ (s : State) (x y : Reg),
    ∃ t, exec (.drw x y 0) s = .next t ∧ t.reg 0xF = 0 ∧ t.pc = s.pc + 2 ∧
      registersBut [0xF] s t ∧ sameBut [.registers] s t

/-- The double-draw law (44_display.md, R197): a second draw of the same sprite at the same position, from any state
that keeps the first draw's display, I, the sprite's bytes and the two coordinates, restores the display of before the
first. Its VF is as R195 gives it: 1 iff some set bit inside the grid found its cell at 0 before the first draw (so lit
by it), else 0. On a clear display that is the condition of R197, `at least one pixel inside the grid`; on other
displays R197's words and R195 differ, and the model follows R195 (log entry 19). -/
def Obligations.DrawingTwiceRestoresTheDisplay : Prop :=
  ∀ (s t t' u : State) (x y : Reg) (n : Fin 16),
    (n.val = 0 ∨ s.i.toNat + n.val ≤ 0x1000) →
    exec (.drw x y n) s = .next t →
    t'.disp = t.disp → t'.i = s.i → t'.reg x = s.reg x → t'.reg y = s.reg y →
    (∀ k, k < n.val → Memory.read t'.mem (s.i.toNat + k) = Memory.read s.mem (s.i.toNat + k)) →
    exec (.drw x y n) t' = .next u →
    u.disp = s.disp ∧
    ((∃ X Y, X < 64 ∧ Y < 32 ∧ spriteBit s x y n X Y = true ∧ Display.pixel s.disp X Y = false) → u.reg 0xF = 1) ∧
    ((∀ X Y, X < 64 → Y < 32 → spriteBit s x y n X Y = true → Display.pixel s.disp X Y = true) → u.reg 0xF = 0)

/-! ## Keys and timers -/

/-- SKP and SKNP (45_keys_timers.md, R210 to R212; KeyOutOfRange is decision D20): with Vx at most 15, skip by 4 when
the key is pressed (not pressed), else advance by 2, nothing else changing; with Vx above 15, the fault is raised and
nothing else changes. -/
def Obligations.KeySkipsReadTheNamedKey : Prop :=
  ∀ (s : State) (x : Reg),
    (∀ k : Fin 16, (s.reg x).toNat = k.val →
      (∃ t, exec (.skp x) s = .next t ∧ (s.keys[k] = true → t.pc = s.pc + 4) ∧ (s.keys[k] = false → t.pc = s.pc + 2) ∧
        sameBut [] s t) ∧
      (∃ t, exec (.sknp x) s = .next t ∧ (s.keys[k] = false → t.pc = s.pc + 4) ∧ (s.keys[k] = true → t.pc = s.pc + 2) ∧
        sameBut [] s t)) ∧
    (15 < (s.reg x).toNat →
      exec (.skp x) s = .next { s with halt := some { pc := s.pc, cause := .keyOutOfRange (s.reg x) } } ∧
      exec (.sknp x) s = .next { s with halt := some { pc := s.pc, cause := .keyOutOfRange (s.reg x) } })

/-- LD DT, Vx and LD ST, Vx (R217, R218): the timer becomes Vx, the sound output is active iff Vx is above 0, PC
advances by 2, nothing else changes. -/
def Obligations.TimersAreSetFromVx : Prop :=
  ∀ (s : State) (x : Reg),
    (∃ t, exec (.ldDtV x) s = .next t ∧ t.dt = s.reg x ∧ t.pc = s.pc + 2 ∧ sameBut [.delay] s t ∧
      completionResult (.ldDtV x) = .continue) ∧
    (∃ t, exec (.ldStV x) s = .next t ∧ t.st = s.reg x ∧ (soundActive t = true ↔ 0 < (s.reg x).toNat) ∧
      t.pc = s.pc + 2 ∧ sameBut [.sound] s t ∧ completionResult (.ldStV x) = .continue)

/-- LD Vx, K (45_keys_timers.md, R216; decision D21): the core waits for a key into Vx, PC is not advanced, nothing else
changes, and the result is `AwaitingKey(x)`. -/
def Obligations.AwaitKeySuspendsWithoutAdvancing : Prop :=
  ∀ (s : State) (x : Reg),
    ∃ t, exec (.ldVK x) s = .next t ∧ t.wait = some x ∧ t.pc = s.pc ∧ sameBut [.wait] s t ∧
      completionResult (.ldVK x) = .awaitingKey x

/-- A step changes DT only through set-delay-timer and ST only through set-sound-timer, and it always returns a result,
so it waits on nothing (R107). -/
def Obligations.StepsChangeTimersOnlyByTheirInstructions : Prop :=
  ∀ s : State,
    (∃ r, stepResult s = some r) ∧
    ∀ t, step s = .next t →
      ((∀ w x, fetch s = some w → decode w ≠ .instruction (.ldDtV x)) → t.dt = s.dt) ∧
      ((∀ w x, fetch s = some w → decode w ≠ .instruction (.ldStV x)) → t.st = s.st)

/-- `tickTimers()` (60_exceptions.md, R240; that it acts in every state is decision D22): each timer goes down by one,
never below zero, and nothing else changes. -/
def Obligations.TickDecrementsBothTimers : Prop :=
  ∀ s : State,
    (perform .tickTimers s).2.dt.toNat = s.dt.toNat - 1 ∧
    (perform .tickTimers s).2.st.toNat = s.st.toNat - 1 ∧
    (perform .tickTimers s).2.pc = s.pc ∧
    sameBut [.delay, .sound] s (perform .tickTimers s).2

/-- `setKey` (60_exceptions.md, R243, R244, R235; decisions D21, D22): a valid index sets that key alone; a press while
waiting puts the key into the waiting register, advances PC by 2 and ends the wait, and a release or a press while not
waiting changes nothing more; an index outside 0 to 15 returns `InvalidKeyIndex` and changes nothing. -/
def Obligations.SetKeyUpdatesTheKeyAndResolvesAWait : Prop :=
  ∀ s : State,
    (∀ (k : Fin 16) (pressed : Bool), ∃ t, setKey k.val pressed s = (.ok, t) ∧
      t.keys[k] = pressed ∧ (∀ j : Fin 16, j ≠ k → t.keys[j] = s.keys[j]) ∧
      (∀ r, pressed = true → s.wait = some r →
        t.wait = none ∧ (t.reg r).toNat = k.val ∧ t.pc = s.pc + 2 ∧ registersBut [r] s t ∧
        sameBut [.registers, .keys, .wait] s t) ∧
      ((pressed = false ∨ s.wait = none) → t.pc = s.pc ∧ sameBut [.keys] s t)) ∧
    (∀ (index : Int) (pressed : Bool), (index < 0 ∨ 15 < index) → setKey index pressed s = (.invalidKeyIndex, s))

/-- The wait is a hold that only a press or a reset lifts (60_exceptions.md, R245, R31): whatever else the host does,
the core keeps waiting for the same register, with PC, the registers, I, the stack and the display as they were, and
every step returns `AwaitingKey`. -/
def Obligations.WaitLastsUntilAPress : Prop :=
  ∀ (ops : List Operation) (s : State) (x : Reg), s.halt = none → s.wait = some x → .reset ∉ ops →
    (∀ k, 0 ≤ k → k ≤ 15 → .setKey k true ∉ ops) →
    (runSchedule ops s).wait = some x ∧
    (runSchedule ops s).pc = s.pc ∧
    sameBut [.delay, .sound, .memory, .keys] s (runSchedule ops s) ∧
    stepResult (runSchedule ops s) = some (.awaitingKey x)

/-! ## Reset, program load and the host's view -/

/-- The reset values the source states (R36): SP = 0, every register 0, PC = 0x200, and the font at 0x000 to 0x04F
(glyph 0 as the source gives it, the other bytes whatever `FONT` is), in the initial state and after `reset()` from
every state. -/
def Obligations.ResetLeavesTheStatedValues : Prop :=
  ∀ s t : State, (t = State.reset ∨ t = (perform .reset s).2) →
    t.sp.val = 0 ∧ (∀ r, t.reg r = 0) ∧ t.pc = 0x200 ∧
    (∀ a, a < 5 → Memory.read t.mem a = [0xF0, 0x90, 0x90, 0x90, 0xF0].getD a 0) ∧
    (∀ a, 5 ≤ a → a < 80 → Memory.read t.mem a = Config.fontByte a)

/-- The reset values the spec chose (10_state.md, R37; 20_memory.md, R58; decision D23): zero, false or none everywhere
else, after `reset()` from every state; no draw is taken or given back (the model's own, log entry 1). -/
def Obligations.ResetClearsEverythingElse : Prop :=
  ∀ s : State, ∀ t, t = (perform .reset s).2 →
    t.i = 0 ∧ t.dt = 0 ∧ t.st = 0 ∧ (∀ k : Fin 16, t.stack[k] = 0) ∧ (∀ x y, Display.pixel t.disp x y = false) ∧
    (∀ k : Fin 16, t.keys[k] = false) ∧ (∀ a, 80 ≤ a → Memory.read t.mem a = 0) ∧ t.wait = none ∧ t.halt = none ∧
    t.draws = s.draws

/-- `loadProgram` (70_reset_and_hazards.md, R272; allowed in every state, decision D28): an image of at most 3584 bytes
reads back from 0x200 on, every other byte and all other state is unchanged; a longer one returns `ProgramTooLarge` and
changes nothing. -/
def Obligations.LoadProgramCopiesTheImage : Prop :=
  ∀ (s : State) (bytes : List Byte),
    (bytes.length ≤ 3584 →
      ∃ t, loadProgram bytes s = (.ok, t) ∧
        (∀ k, (h : k < bytes.length) → Memory.read t.mem (0x200 + k) = bytes[k]) ∧
        (∀ a, (a < 0x200 ∨ 0x200 + bytes.length ≤ a) → Memory.read t.mem a = Memory.read s.mem a) ∧
        t.pc = s.pc ∧ sameBut [.memory] s t) ∧
    (3584 < bytes.length → loadProgram bytes s = (.programTooLarge, s))

/-- What the host sees (10_state.md, R29 and R38; 44_display.md, R198; 60_exceptions.md, R233, R242 and R248): the
display snapshot has 2048 cells, cell `x + 64*y` the one in column `x` of row `y`; the register snapshot is the
registers; the diagnostic snapshot is these two and the fault record, none while the core is not halted and whole (kind,
pc and info) while it is; the sound output is active iff ST is above 0. -/
def Obligations.SnapshotsShowTheState : Prop :=
  ∀ s : State,
    (displaySnapshot s).length = 2048 ∧
    (∀ x y, x < 64 → y < 32 → (displaySnapshot s)[x + 64 * y]? = some (Display.pixel s.disp x y)) ∧
    (∀ r : Reg, (registerSnapshot s).v[r] = s.reg r) ∧
    (registerSnapshot s).i = s.i ∧ (registerSnapshot s).pc = s.pc ∧ (registerSnapshot s).sp = s.sp ∧
    (registerSnapshot s).dt = s.dt ∧ (registerSnapshot s).st = s.st ∧
    (diagnosticSnapshot s).display = displaySnapshot s ∧ (diagnosticSnapshot s).registers = registerSnapshot s ∧
    (∀ r, (diagnosticSnapshot s).fault = some r ↔ s.halt = some r) ∧
    (soundActive s = true ↔ 0 < s.st.toNat)

/-! ## The invariant -/

/-- The reset state meets the invariant `State.Inv` (R24, R25, R244, and the model's canonical form of memory). -/
def Obligations.ResetMeetsTheInvariant : Prop := State.reset.Inv

/-- Every step keeps the invariant, from every state that meets it (10_state.md R24, R25; 60_exceptions.md R231, R244):
memory stays canonical, PC stays at most 0x10FE, every slot in use holds an address that can be fetched from, `wait` and
`halt` are never both set, a waiting core stands at a fetchable address, and a halted core stands where its record says.
-/
def Obligations.StepKeepsTheInvariant : Prop :=
  ∀ s t : State, s.Inv → step s = .next t → t.Inv

/-- Every schedule of host operations keeps the invariant (the operations of R250 in any order, R60): so it holds of
every state reachable from reset. -/
def Obligations.EveryScheduleKeepsTheInvariant : Prop :=
  ∀ (ops : List Operation) (s : State), s.Inv → (runSchedule ops s).Inv
end

