-- ==== Sys2Proof/Tests/Slice0.lean ====
section
/-! SUPPORT. Tests, one word and one step each, with the expected results of spec/95_test_vectors.md (the vector is
named in each docstring), and a witness for the hypotheses of every statement that has some. -/

namespace Sys2Proof.Tests

open Sys2Proof.Machine

/-! ## Helpers -/

/-- The reset state with some registers, I and PC changed. -/
def boot (rs : List (Reg × Byte)) (i : Word := 0) (pc : Word := 0x200) : State :=
  rs.foldl (fun s r => s.setReg r.1 r.2) { State.reset with i := i, pc := pc }

/-- The reset state with bytes stored from an address on. -/
def poke (a : Nat) (bs : List Byte) (s : State) : State := { s with mem := Memory.writeBlock s.mem a bs }

/-- `n` slots in use, each holding `a`. -/
def stacked (n : Fin 17) (a : Word) (s : State) : State := { s with sp := n, stack := Vector.replicate 16 a }

/-- One key pressed. -/
def pressing (k : Nat) (s : State) : State := { s with keys := s.keys.setIfInBounds k true }

/-- The state after one step on a word stored at PC. -/
def after (w : Nat) (s : State) : Option State :=
  match step (s.withFetchWord 16 w) with
  | .next t => some t
  | _ => none

/-- The result that step returns. -/
def resultAfter (w : Nat) (s : State) : Option StepResult := stepResult (s.withFetchWord 16 w)

/-- Some registers and PC after one step on a word stored at PC. -/
def shows (w : Nat) (s : State) (rs : List Reg) : Option (List Byte × Word) :=
  (after w s).map fun t => (rs.map t.reg, t.pc)

/-- PC and the fault record after one step on a word stored at PC. -/
def halts (w : Nat) (s : State) : Option (Word × Option FaultRecord) := (after w s).map fun t => (t.pc, t.halt)

/-- The cells that are set, in the order of R29. -/
def cells (s : State) : List (Nat × Nat) :=
  (List.range 32).flatMap fun y => ((List.range 64).filter fun x => Display.pixel s.disp x y).map fun x => (x, y)

/-- The cells of glyph 0 at the origin, the source's own example (L1-5). -/
def glyphCells : List (Nat × Nat) :=
  [(0, 0), (1, 0), (2, 0), (3, 0), (0, 1), (3, 1), (0, 2), (3, 2), (0, 3), (3, 3), (0, 4), (1, 4), (2, 4), (3, 4)]

/-! ## Which words are well formed (R90), and the decoder on them -/

/-- One ill-formed word for each row of the table of R90 (V-DEC-1 to V-DEC-7, V-CF-15, V-CF-18). -/
theorem test_ill_formed_words_are_refused :
    ([0x0000, 0x0123, 0x00E1, 0x5121, 0x8008, 0x800F, 0x9121, 0xE000, 0xE09F, 0xF000, 0xF0FF] : List Word).all
      (fun w => !wordWellFormed w && decode w == .unknown w) = true := by decide

/-- A word of every family is accepted. -/
theorem test_well_formed_words_are_accepted :
    ([0x00E0, 0x00EE, 0x1208, 0x5120, 0x800E, 0x9120, 0xA2F0, 0xB300, 0xC30F, 0xD005, 0xE19E, 0xF265] : List Word).all
      wordWellFormed = true := by decide

/-- Fewer than two bytes hold no word. -/
theorem test_one_byte_is_truncated : decodeBytes [0xA2] = .truncated := by decide

/-- Control flow, from the patterns of R76. -/
theorem test_decode_control :
    [decode 0b0000000011101110, decode 0b0001001000001000, decode 0b0010010000000000, decode 0b0011001100010010,
      decode 0b0100001100010010, decode 0b0101000100100000, decode 0b1001000100100000, decode 0b1011001100000000] =
    [.instruction .ret, .instruction (.jp 0x208), .instruction (.call 0x400), .instruction (.seImm 3 0x12),
      .instruction (.sneImm 3 0x12), .instruction (.seReg 1 2), .instruction (.sneReg 1 2),
      .instruction (.jpV0 0x300)] := by decide

/-- Registers and ALU, from the patterns of R76. -/
theorem test_decode_alu :
    [decode 0b0110101111111010, decode 0b0111001000100000, decode 0b1000000101010000, decode 0b1000000101010001,
      decode 0b1000000101010010, decode 0b1000000101010011] =
    [.instruction (.ldImm 0xB 0xFA), .instruction (.addImm 2 0x20), .instruction (.ldReg 1 5), .instruction (.orReg 1 5),
      .instruction (.andReg 1 5), .instruction (.xorReg 1 5)] ∧
    [decode 0b1000000101010100, decode 0b1000000101010101, decode 0b1000000101010110, decode 0b1000000101010111,
      decode 0b1000000101011110, decode 0b1100001100001111] =
    [.instruction (.addReg 1 5), .instruction (.sub 1 5), .instruction (.shr 1 5), .instruction (.subn 1 5),
      .instruction (.shl 1 5), .instruction (.rnd 3 0x0F)] := by decide

/-- Index and memory, from the patterns of R76; `0xA2F0` is the source's own example. -/
theorem test_decode_index :
    [decode 0b1010001011110000, decode 0b1111000100011110, decode 0b1111010000101001, decode 0b1111000000110011,
      decode 0b1111001001010101, decode 0b1111001101100101] =
    [.instruction (.ldI 0x2F0), .instruction (.addI 1), .instruction (.ldF 4), .instruction (.ldB 0),
      .instruction (.ldMemV 2), .instruction (.ldVMem 3)] := by decide

/-- Display, keys and timers, from the patterns of R76. -/
theorem test_decode_display_keys_timers :
    [decode 0b0000000011100000, decode 0b1101000100100101, decode 0b1110000110011110, decode 0b1110001010100001,
      decode 0b1111101100000111, decode 0b1111001100001010, decode 0b1111101000010101, decode 0b1111001000011000] =
    [.instruction .cls, .instruction (.drw 1 2 5), .instruction (.skp 1), .instruction (.sknp 2),
      .instruction (.ldVDt 0xB), .instruction (.ldVK 3), .instruction (.ldDtV 0xA), .instruction (.ldStV 2)] := by decide

/-- The encoder on the source's own example (L1-1) and on a word of each format. -/
theorem test_encode :
    [encode (.ldI 0x2F0), encode (.addReg 0 1), encode (.drw 1 2 5), encode (.seImm 3 0x12), encode (.ldMemV 2)] =
    [0xA2F0, 0x8014, 0xD125, 0x3312, 0xF255] := by decide

/-! ## Control flow -/

/-- V-CF-1. -/
theorem test_ret :
    (after 0x00EE (stacked 1 0x202 (boot [] (pc := 0x20C)))).map (fun t => (t.sp, t.pc, t.stack[0])) =
      some (0, 0x204, 0x202) := by decide
/-- V-CF-2. -/
theorem test_ret_underflow : halts 0x00EE (boot []) = some (0x200, some ⟨0x200, .stackUnderflow⟩) := by decide
/-- V-CF-4. -/
theorem test_jp : shows 0x1208 (boot []) [] = some ([], 0x208) := by decide
/-- V-CF-7. -/
theorem test_call :
    (after 0x2400 (stacked 15 0 (boot [] (pc := 0x300)))).map (fun t => (t.sp, t.pc, t.stack[15])) =
      some (16, 0x400, 0x300) := by decide
/-- V-CF-8. -/
theorem test_call_overflow : halts 0x2400 (stacked 16 0 (boot [])) = some (0x200, some ⟨0x200, .stackOverflow⟩) := by decide
/-- V-CF-9. -/
theorem test_se_imm : shows 0x3312 (boot [(3, 0x12)]) [] = some ([], 0x204) := by decide
/-- V-CF-22. -/
theorem test_se_imm_past_the_end : shows 0x3505 (boot [(5, 5)] (pc := 0xFFE)) [] = some ([], 0x1002) := by decide
/-- V-CF-11. -/
theorem test_sne_imm : shows 0x4312 (boot [(3, 0x12)]) [] = some ([], 0x202) := by decide
/-- V-CF-13. -/
theorem test_se_reg : shows 0x5120 (boot [(1, 7), (2, 7)]) [] = some ([], 0x204) := by decide
/-- V-CF-14. -/
theorem test_se_reg_differs : shows 0x5120 (boot [(1, 7), (2, 8)]) [] = some ([], 0x202) := by decide
/-- V-CF-16. -/
theorem test_sne_reg : shows 0x9120 (boot [(1, 7), (2, 8)]) [] = some ([], 0x204) := by decide
/-- V-CF-20. -/
theorem test_jp_v0 : shows 0xB0FF (boot [(0, 1)]) [] = some ([], 0x100) := by decide
/-- V-CF-21. -/
theorem test_jp_v0_unmasked : shows 0xBFFF (boot [(0, 0xFF)]) [] = some ([], 0x10FE) := by decide

/-! ## Registers and ALU -/

/-- V-ALU-1. -/
theorem test_ld_imm : shows 0x60FA (boot []) [0, 1] = some ([0xFA, 0], 0x202) := by decide
/-- V-ALU-3. -/
theorem test_add_imm : shows 0x7220 (boot [(2, 0xF0), (0xF, 0x55)]) [2, 0xF] = some ([0x10, 0x55], 0x202) := by decide
/-- V-ALU-4. -/
theorem test_ld_reg : shows 0x8150 (boot [(5, 0x33)]) [1, 5] = some ([0x33, 0x33], 0x202) := by decide
/-- V-ALU-5. -/
theorem test_or : shows 0x8011 (boot [(0, 0x0F), (1, 0xF0), (0xF, 0x77)]) [0, 0xF] = some ([0xFF, 0x77], 0x202) := by decide
/-- V-ALU-6. -/
theorem test_and : shows 0x8012 (boot [(0, 0x3C), (1, 0x0F)]) [0] = some ([0x0C], 0x202) := by decide
/-- V-ALU-7. -/
theorem test_xor : shows 0x8013 (boot [(0, 0xFF), (1, 0x0F)]) [0] = some ([0xF0], 0x202) := by decide
/-- V-ALU-8, the source's own example (L1-2). -/
theorem test_add_reg : shows 0x8014 (boot [(0, 0xFA), (1, 0x0A)]) [0, 0xF] = some ([0x04, 1], 0x202) := by decide
/-- V-ALU-9. -/
theorem test_add_reg_no_carry :
    shows 0x8014 (boot [(0, 0x80), (1, 0x7F), (0xF, 1)]) [0, 0xF] = some ([0xFF, 0], 0x202) := by decide
/-- R147: equality is no borrow. -/
theorem test_sub_equal : shows 0x8015 (boot [(0, 5), (1, 5)]) [0, 0xF] = some ([0, 1], 0x202) := by decide
/-- R147: a borrow wraps. -/
theorem test_sub_borrow : shows 0x8015 (boot [(0, 3), (1, 5)]) [0, 0xF] = some ([0xFE, 0], 0x202) := by decide
/-- V-ALU-17. -/
theorem test_shr : shows 0x8036 (boot [(0, 4), (3, 0xFF)]) [0, 0xF] = some ([2, 0], 0x202) := by decide
/-- V-ALU-18. -/
theorem test_shr_flag_survives : shows 0x8FF6 (boot [(0xF, 3)]) [0xF] = some ([1], 0x202) := by decide
/-- V-ALU-19. -/
theorem test_subn : shows 0x8017 (boot [(0, 3), (1, 0x0A)]) [0, 0xF] = some ([7, 1], 0x202) := by decide
/-- V-ALU-20. -/
theorem test_subn_borrow : shows 0x8017 (boot [(0, 0x0A), (1, 3)]) [0, 0xF] = some ([0xF9, 0], 0x202) := by decide
/-- V-ALU-21. -/
theorem test_shl : shows 0x800E (boot [(0, 0x81)]) [0, 0xF] = some ([2, 1], 0x202) := by decide
/-- V-ALU-23. -/
theorem test_shl_flag_survives : shows 0x8FFE (boot [(0xF, 0x80)]) [0xF] = some ([1], 0x202) := by decide
/-- V-ALU-24, for every draw: Vx is the draw ANDed with kk. -/
theorem test_rnd : shows 0xC30F (boot []) [3] = some ([Config.randomByte 0 &&& 0x0F], 0x202) := by rfl
/-- R151: the draw is counted, so that the next one is another. -/
theorem test_rnd_takes_one_draw : (after 0xC30F (boot [])).map State.draws = some 1 := by decide

/-! ## Index register and memory -/

/-- V-IDX-1, the source's own example (L1-1). -/
theorem test_ld_i : (after 0xA2F0 (boot [])).map (fun t => (t.i, t.pc)) = some (0x2F0, 0x202) := by decide
/-- V-IDX-3. -/
theorem test_add_i :
    (after 0xF11E (boot [(1, 1)] (i := 0xFFF))).map (fun t => (t.i, t.reg 0xF, t.halt)) = some (0x1000, 1, none) := by decide
/-- V-IDX-6. -/
theorem test_add_i_reads_vf_first :
    (after 0xFF1E (boot [(0xF, 0x20)] (i := 0x100))).map (fun t => (t.i, t.reg 0xF)) = some (0x120, 0) := by decide
/-- V-IDX-8. -/
theorem test_ld_f : (after 0xF429 (boot [(4, 0x0F)])).map State.i = some 0x04B := by decide
/-- V-IDX-10. -/
theorem test_ld_f_unmasked : (after 0xF429 (boot [(4, 0xFF)])).map State.i = some 0x4FB := by decide
/-- V-IDX-11, the source's own example (L1-3). -/
theorem test_ld_b :
    (after 0xF033 (boot [(0, 0xEA)] (i := 0x300))).map (fun t => (Memory.readBlock t.mem 0x300 4, t.i)) =
      some ([2, 3, 4, 0], 0x300) := by decide
/-- V-IDX-15. -/
theorem test_ld_b_past_the_end :
    halts 0xF033 (boot [(0, 1)] (i := 0xFFE)) = some (0x200, some ⟨0x200, .memoryOutOfBounds 0x1000⟩) := by decide
/-- V-IDX-17. -/
theorem test_ld_mem_v :
    (after 0xF255 (poke 0x303 [0xAA] (boot [(0, 1), (1, 2), (2, 3)] (i := 0x300)))).map
      (fun t => (Memory.readBlock t.mem 0x300 4, t.i)) = some ([1, 2, 3, 0xAA], 0x300) := by decide
/-- V-IDX-19. -/
theorem test_ld_mem_v_past_the_end :
    halts 0xFF55 (boot [] (i := 0xFF1)) = some (0x200, some ⟨0x200, .memoryOutOfBounds 0x1000⟩) := by decide
/-- V-IDX-21. -/
theorem test_ld_v_mem :
    shows 0xF265 (poke 0x2F0 [0, 0, 4] (boot [(3, 0x33)] (i := 0x2F0))) [0, 1, 2, 3] = some ([0, 0, 4, 0x33], 0x202) := by
  decide
/-- V-IDX-24. -/
theorem test_ld_v_mem_past_the_end :
    halts 0xF065 (boot [] (i := 0x1005)) = some (0x200, some ⟨0x200, .memoryOutOfBounds 0x1005⟩) := by decide
/-- P9: a store is seen by the next fetch. -/
theorem test_stored_word_is_fetched :
    ((after 0xF155 (boot [(0, 0x6A), (1, 0x77)] (i := 0x208) (pc := 0x206))).bind fetch) = some 0x6A77 := by decide

/-! ## Display -/

/-- V-DRW-1. -/
theorem test_cls :
    (after 0x00E0 { boot [] with disp := Display.toggle State.reset.disp 5 5 }).map cells = some [] ∧
    resultAfter 0x00E0 (boot []) = some .displayChanged := by decide
/-- V-DRW-5. -/
theorem test_drw_clips :
    (after 0xD011 (boot [(0, 62), (1, 31)])).map (fun t => (cells t, t.reg 0xF)) = some ([(62, 31), (63, 31)], 0) := by decide
/-- V-DRW-4: the collision. -/
theorem test_drw_collides :
    (after 0xD005 { boot [] with disp := Display.toggle State.reset.disp 0 0 }).map (fun t => (cells t, t.reg 0xF)) =
      some (glyphCells.tail, 1) := by decide
/-! ## Keys, timers, the step and the host -/

/-- V-KT-1. -/
theorem test_skp : shows 0xE19E (pressing 7 (boot [(1, 7)])) [] = some ([], 0x204) := by decide
/-- V-KT-5. -/
theorem test_skp_out_of_range : halts 0xE19E (boot [(1, 0x10)]) = some (0x200, some ⟨0x200, .keyOutOfRange 0x10⟩) := by decide
/-- V-KT-3. -/
theorem test_sknp : shows 0xE1A1 (boot [(1, 7)]) [] = some ([], 0x204) := by decide
/-- V-KT-4. -/
theorem test_sknp_pressed : shows 0xE1A1 (pressing 7 (boot [(1, 7)])) [] = some ([], 0x202) := by decide
/-- V-KT-7. -/
theorem test_ld_v_dt : shows 0xFB07 { boot [] with dt := 0x3C } [0xB] = some ([0x3C], 0x202) := by decide
/-- V-KT-8. -/
theorem test_ld_v_k :
    (after 0xF30A (boot [])).map (fun t => (t.wait, t.pc)) = some (some 3, 0x200) ∧
    resultAfter 0xF30A (boot []) = some (.awaitingKey 3) := by decide
/-- V-KT-9. -/
theorem test_ld_dt_v : (after 0xFA15 (boot [(0xA, 0x3C)])).map State.dt = some 0x3C := by decide
/-- V-KT-10. -/
theorem test_ld_st_v :
    (after 0xF218 (boot [(2, 5)])).map (fun t => (t.st, soundActive t)) = some (5, true) := by decide
/-- V-DEC-2. -/
theorem test_unknown_word : halts 0x0123 (boot []) = some (0x200, some ⟨0x200, .unknownInstruction 0x0123⟩) := by decide
/-- V-DEC-2, as the host reads it: the step result gives the kind, the diagnostic snapshot the whole record (R233). -/
theorem test_fault_record_is_read_out :
    resultAfter 0x0123 (boot []) = some (.fault .unknownInstruction) ∧
    (after 0x0123 (boot [])).map (fun t => (diagnosticSnapshot t).fault) =
      some (some ⟨0x200, .unknownInstruction 0x0123⟩) := by decide
/-- V-ST-4: the last fetchable word. -/
theorem test_last_word : shows 0x6001 (boot [] (pc := 0xFFE)) [0] = some ([1], 0x1000) := by decide
/-- V-ST-5: an odd PC is legal. -/
theorem test_odd_pc : shows 0x6005 (boot [] (pc := 0x201)) [0] = some ([5], 0x203) := by decide
/-- V-H-7, V-H-8: a press resolves the wait. -/
theorem test_press_resolves_wait :
    (fun r : KeyReturn × State => (r.1, r.2.reg 0xF, r.2.pc, r.2.wait)) (setKey 0xC true { boot [] with wait := some 0xF }) =
      (.ok, 0x0C, 0x202, none) := by decide
/-- V-H-4. -/
theorem test_invalid_key : (setKey 16 true (boot [])).1 = .invalidKeyIndex := by decide
/-- V-H-1, V-H-2. -/
theorem test_tick :
    (fun s : State => (s.dt, s.st)) (tickTimers { boot [] with dt := 5, st := 1 }) = (4, 0) ∧
    (tickTimers (boot [])).dt = 0 := by decide
/-- R271: a step straight from reset fetches 0x0000 and faults. -/
theorem test_step_from_reset :
    stepResult State.reset = some (.fault .unknownInstruction) := by decide

/-! ## Witnesses

One theorem for each statement with hypotheses, named after it: a state and operands that meet all of them together, each
clause at a boundary of its range. -/

/-- Two words that decode, one of them with a `y` field that the instruction does not use. -/
theorem witness_EncodeOfDecodeIsTheWord :
    decode 0xA2F0 = .instruction (.ldI 0x2F0) ∧ decode 0x8F36 = .instruction (.shr 0xF 3) := by decide

theorem witness_DecoderAcceptsExactlyTheOpcodeMap :
    wordWellFormed 0xFF65 = true ∧ wordWellFormed 0xFFFF = false := by decide

theorem witness_OpcodeRowsAreDisjoint :
    (Instr.addReg 0 0).row ∈ opcodeMap ∧ (Instr.addReg 0 0).row.covers 0x8FF4 = true := by decide

theorem witness_FetchIsBigEndian :
    (boot [] (pc := 0xFFE)).pc.toNat + 1 < 4096 ∧ fetch (poke 0xFFE [0xA2, 0xF0] (boot [] (pc := 0xFFE))) = some 0xA2F0 := by
  decide

/-- Both clauses, at the last address that can be fetched from: a word that decodes and one that does not. -/
theorem witness_StepRunsTheDecodedInstruction :
    ([0xA2F0, 0x5121] : List Word).all (fun w =>
      let s := (boot [] (pc := 0xFFE)).withFetchWord 16 w.toNat
      decide (s.halt = none ∧ s.wait = none ∧ s.pc.toNat ≤ 0xFFE ∧
        w.toNat = 256 * (Memory.read s.mem s.pc.toNat).toNat + (Memory.read s.mem (s.pc.toNat + 1)).toNat)) = true ∧
    decode 0xA2F0 = .instruction (.ldI 0x2F0) ∧ decode 0x5121 = .unknown 0x5121 := by decide

/-- A core at the last address that can be fetched from, and addresses beside the word placed there. -/
theorem witness_PlacedInstructionRunsNext :
    (boot [] (pc := 0xFFE)).halt = none ∧ (boot [] (pc := 0xFFE)).wait = none ∧ (boot [] (pc := 0xFFE)).pc.toNat ≤ 0xFFE ∧
    0xFFD ≠ (boot [] (pc := 0xFFE)).pc.toNat ∧ 0xFFD ≠ (boot [] (pc := 0xFFE)).pc.toNat + 1 := by decide

/-- The halted core of V-ST-1. -/
def halted : State := { boot [] with halt := some ⟨0x200, .stackUnderflow⟩, dt := 3 }

theorem witness_HaltedStepIsRejected : halted.halt = some ⟨0x200, .stackUnderflow⟩ := by decide

/-- The waiting core of V-ST-6. -/
def waiting : State := { boot [] with wait := some 3 }

theorem witness_WaitingStepHolds : waiting.halt = none ∧ waiting.wait = some 3 := by decide

/-- V-ST-2 and V-ST-3: the first PC that cannot be fetched from, and the highest PC of R24. -/
theorem witness_FetchPastMemoryFaults :
    [boot [] (pc := 0xFFF), boot [] (pc := 0x10FE)].all
      (fun s => decide (s.halt = none ∧ s.wait = none ∧ 0xFFE < s.pc.toNat)) = true := by decide

theorem witness_StepIsTotal : step halted = .fault .stackUnderflow := by rfl

/-- One instruction for each clause: a fault, clear display, draw, await-key, and another. -/
theorem witness_StepReturnsTheResultOfItsInstruction :
    ([0x00EE, 0x00E0, 0xD005, 0xF30A, 0xA2F0] : List Word).all (fun w =>
      let s := (boot []).withFetchWord 16 w.toNat
      decide (s.halt = none ∧ s.wait = none ∧ fetch s = some w ∧ decode w ≠ .unknown w) && (after w.toNat s).isSome) = true ∧
    [after 0x00EE (boot []), after 0x00E0 (boot []), after 0xD005 (boot []), after 0xF30A (boot []), after 0xA2F0 (boot [])].map
      (fun t => t.map fun t => t.halt.isSome) = [some true, some false, some false, some false, some false] := by decide

theorem witness_FaultChangesOnlyTheHaltRecord :
    ∃ t, step ((boot []).withFetchWord 16 0x00EE) = .next t ∧ ((boot []).withFetchWord 16 0x00EE).halt = none ∧
      t.halt = some ⟨0x200, .stackUnderflow⟩ := ⟨_, rfl, by decide, by decide⟩

/-- The premise, and each faulting form just inside and just outside its condition: what the model answers there. -/
theorem witness_InstructionsFaultExactlyAsListed :
    (boot []).halt = none ∧
    [(halts 0x00EE (stacked 1 0x300 (boot []))), (halts 0x2400 (stacked 15 0x300 (boot []))),
      (halts 0xD00F (boot [] (i := 0xFF1))), (halts 0xD000 (boot [] (i := 0xFFFF))), (halts 0xF033 (boot [] (i := 0xFFD))),
      (halts 0xFF55 (boot [] (i := 0xFF0))), (halts 0xF065 (boot [] (i := 0xFFF))), (halts 0xE19E (boot [(1, 15)])),
      (halts 0xE1A1 (boot [(1, 15)]))].all (fun r => r.any fun r => r.2.isNone) = true ∧
    [(halts 0x00EE (stacked 0 0x300 (boot []))), (halts 0x2400 (stacked 16 0x300 (boot []))),
      (halts 0xD00F (boot [] (i := 0xFF2))), (halts 0xD001 (boot [] (i := 0x1000))), (halts 0xF033 (boot [] (i := 0xFFE))),
      (halts 0xFF55 (boot [] (i := 0xFF1))), (halts 0xF065 (boot [] (i := 0x1000))), (halts 0xE19E (boot [(1, 16)])),
      (halts 0xE1A1 (boot [(1, 16)]))].all (fun r => r.any fun r => r.2.isSome) = true := by decide

theorem witness_StackViolationsAreFatal :
    (stacked 16 0x300 (boot [])).sp.val = 16 ∧ (stacked 0 0x300 (boot [])).sp.val = 0 := by decide

theorem witness_HaltLastsUntilReset :
    halted.halt = some ⟨0x200, .stackUnderflow⟩ ∧ halted.wait = none ∧
    Operation.reset ∉ [Operation.step, .tickTimers, .setKey 3 true, .loadProgram [0x12]] := by decide

/-- Both clauses: a full stack, one slot in use, and an empty stack. -/
theorem witness_ReturnGoesTwoPastThePoppedAddress :
    (stacked 16 0x300 (boot [])).sp.val = (15 : Fin 16).val + 1 ∧ (stacked 1 0x300 (boot [])).sp.val = (0 : Fin 16).val + 1 ∧
    (boot []).sp.val = 0 := by decide

/-- Both clauses: an empty stack, one free slot, and a full stack. -/
theorem witness_CallPushesItsOwnAddress :
    (boot []).sp.val = (0 : Fin 16).val ∧ (stacked 15 0x300 (boot [])).sp.val = (15 : Fin 16).val ∧
    (stacked 16 0x300 (boot [])).sp.val = 16 := by decide

theorem witness_ImmediateSkipsMovePcByFourOrTwo :
    (boot [(0xF, 0xFF)]).reg 0xF = 0xFF ∧ (boot [(0xF, 0xFE)]).reg 0xF ≠ 0xFF := by decide

theorem witness_RegisterSkipsMovePcByFourOrTwo :
    (boot []).reg 1 = (boot []).reg 2 ∧ (boot [(1, 7)]).reg 1 ≠ (boot [(1, 7)]).reg 2 ∧
    opField 0x5121 = 0x5 ∧ nField 0x5121 ≠ 0 ∧ opField 0x912F = 0x9 ∧ nField 0x912F ≠ 0 := by decide

/-- A fault, and one instruction for each way PC moves. -/
theorem witness_EveryInstructionMovesPcOneWay :
    (boot [] (pc := 0xFFE)).halt = none ∧
    (∃ t, exec .ret (boot [] (pc := 0xFFE)) = .next t ∧ t.halt ≠ none) ∧
    (∃ t, exec (.seImm 0 0) (boot [] (pc := 0xFFE)) = .next t ∧ t.halt = none) ∧
    (∃ t, exec (.jpV0 0xFFF) (boot [(0, 0xFF)]) = .next t ∧ t.halt = none) ∧
    (∃ t, exec (.ldVK 0) (boot []) = .next t ∧ t.halt = none) ∧
    (∃ t, exec .ret (stacked 16 0xFFE (boot [])) = .next t ∧ t.halt = none) :=
  ⟨by decide, ⟨_, rfl, by decide⟩, ⟨_, rfl, by decide⟩, ⟨_, rfl, by decide⟩, ⟨_, rfl, by decide⟩, ⟨_, rfl, by decide⟩⟩

/-- A call with one slot left, a tick in between, and the return. -/
theorem witness_CallAndReturnPairUp :
    ∃ t u, (stacked 15 0x300 (boot [])).sp.val = (15 : Fin 16).val ∧
      exec (.call 0x400) (stacked 15 0x300 (boot [])) = .next t ∧
      (∀ m, m ≤ [Operation.tickTimers].length → (15 : Fin 16).val < (runSchedule ([Operation.tickTimers].take m) t).sp.val) ∧
      (runSchedule [Operation.tickTimers] t).sp.val = (15 : Fin 16).val + 1 ∧
      exec .ret (runSchedule [Operation.tickTimers] t) = .next u := by
  refine ⟨_, _, by decide, rfl, ?_, by decide, rfl⟩
  intro m hm
  match m, hm with
  | 0, _ => decide
  | 1, _ => decide

/-- The clause of the destinations other than VF, at the highest of them. -/
theorem witness_AddRegisterSumAndCarry : (0xE : Reg) ≠ 0xF := by decide

theorem witness_SubtractionsWrapAndFlagNoBorrow : (0xE : Reg) ≠ 0xF := by decide

theorem witness_ShiftsMoveOneBitIntoTheFlag : (0xE : Reg) ≠ 0xF := by decide

/-- A bit that is clear in kk. -/
theorem witness_RandomAndMasksOneFreeDraw : (0x7F : Byte).getLsbD 7 = false := by decide

/-- One flag-defining instruction, one that keeps VF, and one that has another destination. -/
theorem witness_FlagRegisterIsWrittenExactlyByItsInstructions :
    (boot [(0xF, 0x55)]).halt = none ∧
    (∃ t, exec (.addI 0xF) (boot [(0xF, 0x55)]) = .next t ∧ t.halt = none) ∧
    (∃ t, exec (.jp 0xFFF) (boot [(0xF, 0x55)]) = .next t ∧ t.halt = none) ∧
    (∃ t, exec (.ldVMem 0xE) (boot [(0xF, 0x55)] (i := 0xFF1)) = .next t ∧ t.halt = none) ∧ (0xE : Reg) ≠ 0xF :=
  ⟨by decide, ⟨_, rfl, by decide⟩, ⟨_, rfl, by decide⟩, ⟨_, rfl, by decide⟩, by decide⟩

theorem witness_InstructionsWriteOnlyTheirParts :
    (∃ t, exec (.ldMemV 0xF) (boot [] (i := 0xFF0)) = .next t) ∧ (∃ t, exec (.ldMemV 0xF) (boot [] (i := 0xFF1)) = .next t) ∧
    (0xE : Reg) < 0xF := ⟨⟨_, rfl⟩, ⟨_, rfl⟩, by decide⟩

/-- Both clauses, on either side of the boundary; the clauses exclude each other. -/
theorem witness_StoreBcdWritesThreeDigits :
    (boot [] (i := 0xFFD)).i.toNat + 2 ≤ 0xFFF ∧ 0xFFF < (boot [] (i := 0xFFE)).i.toNat + 2 := by decide

/-- Both clauses, on either side of the boundary, for the widest and the narrowest block. -/
theorem witness_WriteBlockCopiesThroughVx :
    (boot [] (i := 0xFF0)).i.toNat + (0xF : Reg).val ≤ 0xFFF ∧ 0xFFF < (boot [] (i := 0xFF1)).i.toNat + (0xF : Reg).val ∧
    (boot [] (i := 0xFFF)).i.toNat + (0 : Reg).val ≤ 0xFFF ∧ 0xFFF < (boot [] (i := 0x1000)).i.toNat + (0 : Reg).val ∧
    (0xF : Reg) ≤ 0xF := by decide

theorem witness_ReadBlockCopiesThroughVx :
    (boot [] (i := 0xFF0)).i.toNat + (0xF : Reg).val ≤ 0xFFF ∧ 0xFFF < (boot [] (i := 0xFF1)).i.toNat + (0xF : Reg).val ∧
    (0xE : Reg) ≤ 0xE ∧ (0xE : Reg) < 0xF := by decide

/-- Both clauses: the last pair of bytes inside the block, and the words just before and just after it. -/
theorem witness_FetchSeesTheBlockWritten :
    (boot [] (i := 0x300)).i.toNat + (0xF : Reg).val ≤ 0xFFF ∧
    (∃ t, exec (.ldMemV 0xF) (boot [] (i := 0x300)) = .next t) ∧
    ((0xF : Reg).val = (0xE : Reg).val + 1 ∧ (0xF : Reg) ≤ 0xF ∧
      (0x30E : Word).toNat = (boot [] (i := 0x300)).i.toNat + (0xE : Reg).val) ∧
    (0x2FE : Word).toNat + 1 < (boot [] (i := 0x300)).i.toNat ∧
    (boot [] (i := 0x300)).i.toNat + (0xF : Reg).val < (0x310 : Word).toNat :=
  ⟨by decide, ⟨_, rfl⟩, by decide, by decide, by decide⟩

/-- The clauses of the range at its boundary, and a draw with and a draw without a collision (V-DRW-3, V-DRW-4). -/
theorem witness_DrawXorsTheSpriteAndReportsCollision :
    (boot [] (i := 0xFF1)).i.toNat + (15 : Fin 16).val ≤ 0x1000 ∧
    ¬((15 : Fin 16).val = 0 ∨ (boot [] (i := 0xFF2)).i.toNat + (15 : Fin 16).val ≤ 0x1000) ∧
    (spriteBit (boot []) 0 0 5 0 0 = true ∧
      Display.pixel { boot [] with disp := Display.toggle State.reset.disp 0 0 }.disp 0 0 = true) ∧
    (∀ X Y, X < 64 → Y < 32 → spriteBit (boot []) 0 0 5 X Y = true → Display.pixel (boot []).disp X Y = false) := by
  refine ⟨by decide, by decide, by decide, ?_⟩
  intro X Y _ hY _
  show Display.pixel (Vector.replicate 32 0) X Y = false
  simp [Display.pixel, Display.row, hY]

/-- Two draws of glyph 0 at the origin, on a clear display and, one row of it, on one where that row is set (for both VF
clauses). -/
theorem witness_DrawingTwiceRestoresTheDisplay :
    (∃ t t' u, ((5 : Fin 16).val = 0 ∨ (boot []).i.toNat + (5 : Fin 16).val ≤ 0x1000) ∧
      exec (.drw 0 0 5) (boot []) = .next t ∧ t'.disp = t.disp ∧ t'.i = (boot []).i ∧ t'.reg 0 = (boot []).reg 0 ∧
      (∀ k, k < (5 : Fin 16).val → Memory.read t'.mem ((boot []).i.toNat + k) = Memory.read (boot []).mem ((boot []).i.toNat + k)) ∧
      exec (.drw 0 0 5) t' = .next u) ∧
    (spriteBit (boot []) 0 0 5 0 0 = true ∧ Display.pixel (boot []).disp 0 0 = false) ∧
    (∀ X Y, X < 64 → Y < 32 → spriteBit (boot []) 0 0 1 X Y = true →
      Display.pixel { boot [] with disp := State.reset.disp.set 0 0xF }.disp X Y = true) := by
  refine ⟨⟨_, _, _, by decide, rfl, rfl, rfl, by decide, ?_, rfl⟩, by decide, ?_⟩
  · intro k _; rfl
  · have all : ∀ a, a < 8 → ∀ b, b < 1 → spriteBit (boot []) 0 0 1 a b = true →
        Display.pixel { boot [] with disp := State.reset.disp.set 0 0xF }.disp a b = true := by decide
    intro X Y _ _ h
    have hX : X < 8 ∧ Y < 1 := by
      have h0 : ((boot []).reg 0).toNat = 0 := by decide
      rw [spriteBit, Bool.and_eq_true, decide_eq_true_eq, h0] at h
      exact ⟨by omega, by have := h.1.2.2.2; simpa using this⟩
    exact all X hX.1 Y hX.2 h

/-- Both clauses, on either side of the boundary, with the key pressed and not. -/
theorem witness_KeySkipsReadTheNamedKey :
    ((boot [(0xF, 15)]).reg 0xF).toNat = (15 : Fin 16).val ∧ (boot [(0xF, 15)]).keys[(15 : Fin 16)] = false ∧
    (pressing 15 (boot [(0xF, 15)])).keys[(15 : Fin 16)] = true ∧ 15 < ((boot [(0xF, 16)]).reg 0xF).toNat := by decide

/-- A step that is neither of the two instructions (CLS at PC). -/
theorem witness_StepsChangeTimersOnlyByTheirInstructions :
    ∃ t, step ((boot []).withFetchWord 16 0x00E0) = .next t ∧
      (∀ w x, fetch ((boot []).withFetchWord 16 0x00E0) = some w → decode w ≠ .instruction (.ldDtV x)) ∧
      (∀ w x, fetch ((boot []).withFetchWord 16 0x00E0) = some w → decode w ≠ .instruction (.ldStV x)) := by
  have h : fetch ((boot []).withFetchWord 16 0x00E0) = some 0x00E0 := by decide
  refine ⟨_, rfl, ?_, ?_⟩ <;>
  · intro w x hw
    rw [h] at hw
    injection hw with hw
    subst hw
    intro hc
    exact Decoded.noConfusion hc (by intro hi; cases hi)

/-- Every clause: a press with a wait, a release, a press without a wait, and the indices beside the range. -/
theorem witness_SetKeyUpdatesTheKeyAndResolvesAWait :
    waiting.wait = some 3 ∧ (boot []).wait = none ∧ (15 : Fin 16).val = 15 ∧ ((-1 : Int) < 0) ∧ (15 : Int) < 16 := by decide

theorem witness_WaitLastsUntilAPress :
    waiting.halt = none ∧ waiting.wait = some 3 ∧
    Operation.reset ∉ [Operation.step, .tickTimers, .setKey 7 false, .setKey 16 true] ∧
    (∀ k : Int, 0 ≤ k → k ≤ 15 → Operation.setKey k true ∉ [Operation.step, .tickTimers, .setKey 7 false, .setKey 16 true]) := by
  refine ⟨by decide, by decide, by decide, ?_⟩
  intro k _ hk hm
  simp at hm
  omega

/-- Both states, and every range of addresses at its ends. -/
theorem witness_ResetLeavesTheStatedValues :
    (State.reset = State.reset ∨ State.reset = (perform .reset halted).2) ∧
    (perform .reset halted).2 = State.reset ∧ 4 < 5 ∧ 5 ≤ 5 ∧ 79 < 80 := ⟨.inl rfl, by decide, by decide, by decide, by decide⟩

theorem witness_ResetClearsEverythingElse :
    (perform .reset halted).2 = (perform .reset halted).2 ∧ 80 ≤ 80 ∧ 80 ≤ 0xFFF := ⟨rfl, by decide, by decide⟩

/-- Both clauses, on either side of the boundary (V-H-9, V-H-10). -/
theorem witness_LoadProgramCopiesTheImage :
    (List.replicate 3584 (0x12 : Byte)).length ≤ 3584 ∧ 3583 < (List.replicate 3584 (0x12 : Byte)).length ∧
    0x1FF < 0x200 ∧ 0x200 + (List.replicate 3584 (0x12 : Byte)).length ≤ 0x1000 ∧
    3584 < (List.replicate 3585 (0x12 : Byte)).length := by
  simp only [List.length_replicate]
  decide

theorem witness_SnapshotsShowTheState : 63 < 64 ∧ 31 < 32 ∧ 63 + 64 * 31 = 2047 := by decide

/-- A state other than reset that meets the invariant: after a call, with the stack in use. -/
theorem inv_of_a_called_state : (stacked 1 0x202 (boot [] (pc := 0x20A))).Inv where
  memory := by decide
  pcBound := by decide
  stackBound := by decide
  notBoth := .inl rfl
  waitBound := fun h => absurd rfl h
  haltPc := fun r h => by cases h

theorem witness_StepKeepsTheInvariant :
    (stacked 1 0x202 (boot [] (pc := 0x20A))).Inv ∧ ∃ t, step (stacked 1 0x202 (boot [] (pc := 0x20A))) = .next t :=
  ⟨inv_of_a_called_state, _, rfl⟩

theorem witness_EveryScheduleKeepsTheInvariant : (stacked 1 0x202 (boot [] (pc := 0x20A))).Inv := inv_of_a_called_state

end Sys2Proof.Tests
end

section
/-! The state after reset (10_state.md, R36): what its registers and its font bytes read as. -/

namespace Sys2Proof.Machine

theorem unlistedByte_of_lt_glyphSize {a : Nat} (h : a < Config.glyphSize) :
    unlistedByte a = Config.glyphZero.getD a 0 := if_pos h

theorem unlistedByte_of_lt_fontSize {a : Nat} (hlo : Config.glyphSize ≤ a) (hhi : a < Config.fontSize) :
    unlistedByte a = Config.fontByte a := by
  rw [unlistedByte, if_neg (Nat.not_lt.mpr hlo), if_pos hhi]

@[simp] theorem State.reset_reg (r : Reg) : State.reset.reg r = 0 := by
  simp [State.reg, State.reset]

@[simp] theorem resetCore_reg (s : State) (r : Reg) : (resetCore s).reg r = State.reset.reg r := rfl

/-- The initial state is itself a state that `reset()` leaves, so a claim about both is one about `resetCore`. -/
theorem resetCore_reset : resetCore State.reset = State.reset := rfl

/-- SP, the registers, PC and the font bytes after `reset()` from any state (R36). -/
theorem resetCore_stated_values (s : State) :
    (resetCore s).sp.val = 0 ∧ (∀ r, (resetCore s).reg r = 0) ∧ (resetCore s).pc = 0x200 ∧
    (∀ a, a < Config.glyphSize → Memory.read (resetCore s).mem a = Config.glyphZero.getD a 0) ∧
    (∀ a, Config.glyphSize ≤ a → a < Config.fontSize → Memory.read (resetCore s).mem a = Config.fontByte a) := by
  have unlisted (a : Nat) : Memory.read (resetCore s).mem a = unlistedByte a := Memory.read_nil a
  refine ⟨rfl, fun r => ?_, rfl, fun a h => ?_, fun a hlo hhi => ?_⟩
  · rw [resetCore_reg, State.reset_reg]
  · rw [unlisted, unlistedByte_of_lt_glyphSize h]
  · rw [unlisted, unlistedByte_of_lt_fontSize hlo hhi]

/-- Settles O54: the initial state is `resetCore` of itself, so both cases are the values `resetCore` leaves. -/
theorem resetLeavesTheStatedValues : Obligations.ResetLeavesTheStatedValues := by
  unfold Obligations.ResetLeavesTheStatedValues
  rintro s t (rfl | rfl)
  · rw [← resetCore_reset]
    exact resetCore_stated_values State.reset
  · exact resetCore_stated_values s

end Sys2Proof.Machine
end

section
/-! Memory as an instruction fetch sees it (20_memory.md, R53). -/

namespace Sys2Proof.Machine

/-- Settles O8: a PC whose word lies in memory is at most `Config.lastFetchAddress`, so the fetch reads a word, and
`wordOfBytes` puts the byte at PC above the byte at PC + 1. -/
theorem fetchIsBigEndian : Obligations.FetchIsBigEndian := by
  unfold Obligations.FetchIsBigEndian
  intro s h
  have inside : s.pc.toNat ≤ Config.lastFetchAddress := by
    rw [Config.lastFetchAddress]
    omega
  exact ⟨_, fetch_inside inside, wordOfBytes_toNat _ _⟩

end Sys2Proof.Machine
end

section
/-! The fields of the instruction word (30_encoding.md, R71). -/

namespace Sys2Proof

/-- Settles O6: the numeric lemma of each field is its bit range, with the power of two written as a numeral. -/
theorem fieldsStandWhereTheRuleSays : Obligations.FieldsStandWhereTheRuleSays := by
  unfold Obligations.FieldsStandWhereTheRuleSays
  intro w
  exact ⟨opField_toNat w, xField_val w, yField_val w, nField_val w, kkField_toNat w, nnnField_toNat w⟩

end Sys2Proof
end

section
/-! One call of `step()` (40_step.md): its cases said once, and that an instruction always has a next state, whose
timers are the old ones but for set-delay-timer and set-sound-timer (R107). -/

namespace Sys2Proof.Machine

/-! ### The cases of a step -/

/-- The checks of a step in the order of R236, each with the outcome it leads to. -/
inductive StepCase (s : State) : Host.Outcome State Fault Refusal → Prop where
  | halted (r : FaultRecord) (hhalt : s.halt = some r) : StepCase s (.fault r.kind)
  | waiting (x : Reg) (hhalt : s.halt = none) (hwait : s.wait = some x) : StepCase s (.next s)
  | fetchFault (hhalt : s.halt = none) (hwait : s.wait = none) (hfetch : fetch s = none) :
      StepCase s (raise (.memoryOutOfBounds (firstOutside s.pc)) s)
  | unknown (w w' : Word) (hhalt : s.halt = none) (hwait : s.wait = none) (hfetch : fetch s = some w)
      (hdecode : decode w = .unknown w') : StepCase s (raise (.unknownInstruction w') s)
  | executed (w : Word) (i : Instr) (hhalt : s.halt = none) (hwait : s.wait = none) (hfetch : fetch s = some w)
      (hdecode : decode w = .instruction i) : StepCase s (exec i s)

theorem stepCase_step (s : State) : StepCase s (step s) := by
  unfold step cycle
  split
  next r hhalt => exact .halted r hhalt
  next hhalt =>
    split
    next x hwait => exact .waiting x hhalt hwait
    next hwait =>
      split
      next hfetch => exact .fetchFault hhalt hwait hfetch
      next w hfetch =>
        split
        next i hdecode => exact .executed w i hhalt hwait hfetch hdecode
        next w' hdecode => exact .unknown w w' hhalt hwait hfetch hdecode

/-! ### The result of a step -/

theorem resultOf_next_halted {s t : State} {r : FaultRecord} (h : t.halt = some r) :
    resultOf s (.next t) = some (.fault r.kind) := by
  simp only [resultOf, h]

theorem resultOf_next_waiting {s t : State} {x : Reg} (hhalt : t.halt = none) (hwait : s.wait = some x) :
    resultOf s (.next t) = some (.awaitingKey x) := by
  simp only [resultOf, hhalt, hwait]

theorem resultOf_next_executed {s t : State} {w : Word} {i : Instr} (hhalt : t.halt = none) (hwait : s.wait = none)
    (hfetch : fetch s = some w) (hdecode : decode w = .instruction i) :
    resultOf s (.next t) = some (completionResult i) := by
  simp only [resultOf, hhalt, hwait, hfetch, hdecode, Option.map_some]

theorem resultOf_raise (c : FaultCause) (s : State) : resultOf s (raise c s) = some (.fault c.kind) := rfl

/-! ### Instructions that can fault -/

theorem execRet_underflow {s : State} (h : s.sp.val = 0) : execRet s = raise .stackUnderflow s := by
  simp only [execRet, pop_empty h]

theorem execRet_pops {s : State} (h : s.sp.val ≠ 0) :
    execRet s = .next ({ s with sp := ⟨s.sp.val - 1, by omega⟩ }.jump (s.stack[s.sp.val - 1]'(by omega) + 2)) := by
  simp only [execRet, pop_some h]

theorem execCall_overflow {s : State} (h : s.sp.val = 16) (nnn : Addr12) :
    execCall nnn s = raise .stackOverflow s := by
  simp only [execCall, push_full h]

theorem execCall_pushes {s : State} (h : s.sp.val < 16) (nnn : Addr12) :
    execCall nnn s = .next ({ s with
      stack := s.stack.set s.sp.val s.pc
      sp := ⟨s.sp.val + 1, by omega⟩ }.jump (addressOperand nnn)) := by
  simp only [execCall, push_room h]

theorem execSkp_outOfRange {s : State} {x : Reg} (h : 15 < (s.reg x).toNat) :
    execSkp x s = raise (.keyOutOfRange (s.reg x)) s := by
  simp only [execSkp, keyAt_none h]

theorem execSkp_key {s : State} {x : Reg} (h : (s.reg x).toNat < 16) :
    execSkp x s = .next (s.skipIf s.keys[(s.reg x).toNat]) := by
  simp only [execSkp, keyAt_some h]

theorem execSknp_outOfRange {s : State} {x : Reg} (h : 15 < (s.reg x).toNat) :
    execSknp x s = raise (.keyOutOfRange (s.reg x)) s := by
  simp only [execSknp, keyAt_none h]

theorem execSknp_key {s : State} {x : Reg} (h : (s.reg x).toNat < 16) :
    execSknp x s = .next (s.skipIf (!s.keys[(s.reg x).toNat])) := by
  simp only [execSknp, keyAt_some h]

/-! ### The next state of an instruction and its timers -/

/-- The outcome is a next state, and `P` holds of it. -/
def NextWith (P : State → Prop) (o : Host.Outcome State Fault Refusal) : Prop := ∃ t, o = .next t ∧ P t

theorem nextWith_withRange {P : State → Prop} {s : State} {go : Host.Outcome State Fault Refusal} {a : Word} {len : Nat}
    (hgo : NextWith P go) (hraise : ∀ c, NextWith P (raise c s)) : NextWith P (withRange a len s go) := by
  by_cases h : len = 0 ∨ a.toNat + len ≤ Config.memorySize
  · rwa [withRange_inside h]
  · rw [withRange_outside h]
    exact hraise _

/-- DT after the instruction: only set-delay-timer writes it (R217). -/
def delayAfter (i : Instr) (s : State) : Byte :=
  match i with
  | .ldDtV x => s.reg x
  | _ => s.dt

/-- ST after the instruction: only set-sound-timer writes it (R218). -/
def soundAfter (i : Instr) (s : State) : Byte :=
  match i with
  | .ldStV x => s.reg x
  | _ => s.st

theorem delayAfter_of_ne {i : Instr} (h : ∀ x, i ≠ .ldDtV x) (s : State) : delayAfter i s = s.dt := by
  unfold delayAfter
  split
  next x => exact absurd rfl (h x)
  next => rfl

theorem soundAfter_of_ne {i : Instr} (h : ∀ x, i ≠ .ldStV x) (s : State) : soundAfter i s = s.st := by
  unfold soundAfter
  split
  next x => exact absurd rfl (h x)
  next => rfl

/-- The timers of `t` are those that `i` executed in `s` leaves. -/
def TimersAfter (i : Instr) (s t : State) : Prop := t.dt = delayAfter i s ∧ t.st = soundAfter i s

/-- Every instruction has a next state, a raised fault included (R231), and it holds the timers of `TimersAfter`. The
instructions that are not a plain update branch on the stack, on a skip, on the key that Vx names, or on the range they
reach in memory. -/
theorem exec_timersAfter (i : Instr) (s : State) : NextWith (TimersAfter i s) (exec i s) := by
  cases i with
  | ret =>
    by_cases h : s.sp.val = 0
    · exact ⟨_, execRet_underflow h, rfl, rfl⟩
    · exact ⟨_, execRet_pops h, rfl, rfl⟩
  | call nnn =>
    by_cases h : s.sp.val < 16
    · exact ⟨_, execCall_pushes h nnn, rfl, rfl⟩
    · exact ⟨_, execCall_overflow (by omega) nnn, rfl, rfl⟩
  | seImm | sneImm | seReg | sneReg => exact ⟨_, rfl, State.skipIf_dt s _, State.skipIf_st s _⟩
  | skp x =>
    by_cases h : (s.reg x).toNat < 16
    · exact ⟨_, execSkp_key h, State.skipIf_dt s _, State.skipIf_st s _⟩
    · exact ⟨_, execSkp_outOfRange (by omega), rfl, rfl⟩
  | sknp x =>
    by_cases h : (s.reg x).toNat < 16
    · exact ⟨_, execSknp_key h, State.skipIf_dt s _, State.skipIf_st s _⟩
    · exact ⟨_, execSknp_outOfRange (by omega), rfl, rfl⟩
  | drw | ldB | ldMemV | ldVMem => exact nextWith_withRange ⟨_, rfl, rfl, rfl⟩ fun _ => ⟨_, rfl, rfl, rfl⟩
  | _ => exact ⟨_, rfl, rfl, rfl⟩

/-! ### Every step -/

theorem StepCase.exists_result {s : State} {o : Host.Outcome State Fault Refusal} (hcase : StepCase s o) :
    ∃ r, resultOf s o = some r := by
  cases hcase with
  | halted r hhalt => exact ⟨_, rfl⟩
  | waiting x hhalt hwait => exact ⟨_, resultOf_next_waiting hhalt hwait⟩
  | fetchFault => exact ⟨_, resultOf_raise _ s⟩
  | unknown => exact ⟨_, resultOf_raise _ s⟩
  | executed w i _ hwait hfetch hdecode =>
    obtain ⟨t, hexec, -⟩ := exec_timersAfter i s
    rw [hexec]
    cases hhalt : t.halt with
    | none => exact ⟨_, resultOf_next_executed hhalt hwait hfetch hdecode⟩
    | some r => exact ⟨_, resultOf_next_halted hhalt⟩

/-- A step that executes no instruction keeps both timers, and one that executes `i` leaves those of `TimersAfter i`. -/
theorem StepCase.timers {s t : State} {o : Host.Outcome State Fault Refusal} (hcase : StepCase s o) (ho : o = .next t) :
    (t.dt = s.dt ∧ t.st = s.st) ∨ ∃ w i, fetch s = some w ∧ decode w = .instruction i ∧ TimersAfter i s t := by
  cases hcase with
  | halted => cases ho
  | waiting =>
    cases ho
    exact .inl ⟨rfl, rfl⟩
  | fetchFault =>
    cases ho
    exact .inl ⟨rfl, rfl⟩
  | unknown =>
    cases ho
    exact .inl ⟨rfl, rfl⟩
  | executed w i _ _ hfetch hdecode =>
    obtain ⟨u, hexec, htimers⟩ := exec_timersAfter i s
    obtain rfl : u = t := Host.Outcome.next.inj (hexec.symm.trans ho)
    exact .inr ⟨w, i, hfetch, hdecode, htimers⟩

/-- Settles O50: every case of a step has a result, and the timers after it are the old ones unless the fetched
instruction is the one that writes them. -/
theorem stepsChangeTimersOnlyByTheirInstructions : Obligations.StepsChangeTimersOnlyByTheirInstructions := by
  unfold Obligations.StepsChangeTimersOnlyByTheirInstructions
  intro s
  refine ⟨(stepCase_step s).exists_result, fun t ht => ?_⟩
  obtain ⟨hdt, hst⟩ | ⟨w, i, hfetch, hdecode, hdt, hst⟩ := (stepCase_step s).timers ht
  · exact ⟨fun _ => hdt, fun _ => hst⟩
  · constructor
    · intro h
      exact hdt.trans (delayAfter_of_ne (fun x hx => h w x hfetch (hx ▸ hdecode)) s)
    · intro h
      exact hst.trans (soundAfter_of_ne (fun x hx => h w x hfetch (hx ▸ hdecode)) s)

end Sys2Proof.Machine
end

section
/-! Jumps and the skips on an immediate (41_control_flow.md): what PC becomes, and that PC alone changes. -/

namespace Sys2Proof.Machine

/-! ### A move of PC and the parts of the state -/

/-- PC is no part, so a write to it keeps every part. -/
theorem sameBut_jump (changed : List Part) (s : State) (a : Word) : sameBut changed s (s.jump a) := by
  intro p _
  cases p with
  | stack => exact ⟨rfl, fun _ => rfl⟩
  | registers | memory | keys => exact fun _ => rfl
  | display => exact fun _ _ => rfl
  | index | delay | sound | wait | halt | draws => rfl

theorem State.skipIf_of_true {c : Bool} (h : c = true) (s : State) : s.skipIf c = s.jump (s.pc + 4) := if_pos h

theorem State.skipIf_of_false {c : Bool} (h : c = false) (s : State) : s.skipIf c = s.jump (s.pc + 2) := by
  rw [h]
  rfl

theorem sameBut_skipIf (changed : List Part) (s : State) (c : Bool) : sameBut changed s (s.skipIf c) := by
  cases c with
  | true => exact sameBut_jump changed s (s.pc + 4)
  | false => exact sameBut_jump changed s (s.pc + 2)

theorem State.skipIf_pc_of_true {c : Bool} (h : c = true) (s : State) : (s.skipIf c).pc = s.pc + 4 := by
  rw [skipIf_of_true h, jump_pc]

theorem State.skipIf_pc_of_false {c : Bool} (h : c = false) (s : State) : (s.skipIf c).pc = s.pc + 2 := by
  rw [skipIf_of_false h, jump_pc]

/-! ### Jumps -/

/-- Settles O21: each jump is a direct write of PC, and neither the zero-extended `nnn` nor `nnn + V0` wraps in 16
bits. -/
theorem jumpsSetThePc : Obligations.JumpsSetThePc := by
  unfold Obligations.JumpsSetThePc
  intro s nnn
  constructor
  · exact ⟨s.jump (addressOperand nnn), rfl, addressOperand_toNat nnn, sameBut_jump [] s _, rfl⟩
  · exact ⟨s.jump (relativeTarget nnn (s.reg 0)), rfl, relativeTarget_toNat nnn (s.reg 0), sameBut_jump [] s _, rfl⟩

/-! ### Skips on an immediate -/

/-- Settles O23: each instruction is one conditional skip, SE's on Vx = kk and SNE's on Vx ≠ kk. -/
theorem immediateSkipsMovePcByFourOrTwo : Obligations.ImmediateSkipsMovePcByFourOrTwo := by
  unfold Obligations.ImmediateSkipsMovePcByFourOrTwo
  intro s x kk
  constructor
  · refine ⟨s.skipIf (s.reg x == kk), rfl, fun heq => ?_, fun hne => ?_, sameBut_skipIf [] s _, rfl⟩
    · exact State.skipIf_pc_of_true (beq_iff_eq.mpr heq) s
    · exact State.skipIf_pc_of_false (beq_eq_false_iff_ne.mpr hne) s
  · refine ⟨s.skipIf (s.reg x != kk), rfl, fun hne => ?_, fun heq => ?_, sameBut_skipIf [] s _, rfl⟩
    · exact State.skipIf_pc_of_true (bne_iff_ne.mpr hne) s
    · exact State.skipIf_pc_of_false (bne_eq_false_iff_eq.mpr heq) s

end Sys2Proof.Machine
end

section
/-! Instructions that write one register (42_alu.md): what the destination reads as, and that no other register and no
other part changes. -/

namespace Sys2Proof.Machine

/-! ### One register written and PC moved on -/

theorem registersBut_setReg_advance (s : State) (x : Reg) (b : Byte) :
    registersBut [x] s (s.setReg x b).advance := by
  intro r hr
  rw [State.advance_reg, State.reg_setReg, if_neg (List.ne_of_not_mem_cons hr)]

theorem sameBut_setReg_advance (s : State) (x : Reg) (b : Byte) :
    sameBut [.registers] s (s.setReg x b).advance := by
  intro p hp
  cases p with
  | registers => exact absurd List.mem_cons_self hp
  | stack => exact ⟨rfl, fun _ => rfl⟩
  | memory | keys => exact fun _ => rfl
  | display => exact fun _ _ => rfl
  | index | delay | sound | wait | halt | draws => rfl

/-- An instruction whose next state is the write of `b` to Vx and the move of PC past it writes Vx and nothing else, VF
being no exception. -/
theorem exec_writes_one_register {i : Instr} {s : State} {x : Reg} {b : Byte}
    (hexec : exec i s = .next (s.setReg x b).advance) (hresult : completionResult i = .continue) :
    ∃ t, exec i s = .next t ∧ t.reg x = b ∧ t.pc = s.pc + 2 ∧
      registersBut [x] s t ∧ sameBut [.registers] s t ∧ completionResult i = .continue := by
  have hread : (s.setReg x b).advance.reg x = b := by
    rw [State.advance_reg, State.reg_setReg, if_pos rfl]
  exact ⟨_, hexec, hread, rfl, registersBut_setReg_advance s x b, sameBut_setReg_advance s x b, hresult⟩

/-! ### Loads and the immediate sum -/

/-- Settles O27: each load is one register write, of `kk`, of Vy and of DT. -/
theorem loadsWriteTheirRegister : Obligations.LoadsWriteTheirRegister := by
  unfold Obligations.LoadsWriteTheirRegister
  intro s x y kk
  refine ⟨?immediate, ?register, ?delayTimer⟩
  case immediate => exact exec_writes_one_register rfl rfl
  case register => exact exec_writes_one_register rfl rfl
  case delayTimer => exact exec_writes_one_register rfl rfl

/-- Settles O28: the instruction is one register write, of `sumByte`, which wraps mod 256. -/
theorem addImmediateWrapsWithoutFlag : Obligations.AddImmediateWrapsWithoutFlag := by
  unfold Obligations.AddImmediateWrapsWithoutFlag
  intro s x kk
  have hexec : exec (.addImm x kk) s = .next (s.setReg x (sumByte (s.reg x) kk)).advance := rfl
  obtain ⟨t, hnext, hread, hframe⟩ := exec_writes_one_register hexec rfl
  have hsum : (t.reg x).toNat = ((s.reg x).toNat + kk.toNat) % 256 := by
    rw [hread, sumByte_toNat]
  exact ⟨t, hnext, hsum, hframe⟩

end Sys2Proof.Machine
end

section
/-! The instruction that loads I (43_index_memory.md): what I becomes, and that I and PC alone change. -/

namespace Sys2Proof.Machine

theorem sameBut_setIndex_advance (s : State) (a : Word) : sameBut [.index] s { s with i := a }.advance := by
  intro p hp
  cases p with
  | index => exact absurd List.mem_cons_self hp
  | stack => exact ⟨rfl, fun _ => rfl⟩
  | registers | memory | keys => exact fun _ => rfl
  | display => exact fun _ _ => rfl
  | delay | sound | wait | halt | draws => rfl

/-- Settles O36: the instruction is one write of the zero-extended `nnn` to I and the move of PC past it. -/
theorem setIndexLoadsTheAddress : Obligations.SetIndexLoadsTheAddress := by
  unfold Obligations.SetIndexLoadsTheAddress
  intro s nnn
  have hindex : ({ s with i := addressOperand nnn }.advance).i.toNat = nnn.toNat := by
    rw [State.advance_i, addressOperand_toNat]
  exact ⟨_, rfl, hindex, rfl, sameBut_setIndex_advance s (addressOperand nnn), rfl⟩

end Sys2Proof.Machine
end

section
/-! Clear display (44_display.md): every cell reads as clear, and the display and PC alone change. -/

namespace Sys2Proof.Machine

/-- Row `y` of a display of 32 zero rows is zero, beyond row 31 too, where no row is listed. -/
@[simp] theorem Display.row_cleared (y : Nat) : Display.row (Vector.replicate 32 0) y = 0 := by
  rw [Display.row, Vector.getElem?_replicate]
  split
  next => exact Option.getD_some
  next => exact Option.getD_none

@[simp] theorem Display.pixel_cleared (x y : Nat) : Display.pixel (Vector.replicate 32 0) x y = false := by
  rw [Display.pixel, Display.row_cleared]
  exact BitVec.getLsbD_zero

theorem sameBut_setDisplay_advance (s : State) (d : Display) : sameBut [.display] s { s with disp := d }.advance := by
  intro p hp
  cases p with
  | display => exact absurd List.mem_cons_self hp
  | stack => exact ⟨rfl, fun _ => rfl⟩
  | registers | memory | keys => exact fun _ => rfl
  | index | delay | sound | wait | halt | draws => rfl

/-- Settles O43: the instruction is one write of 32 zero rows to the display and the move of PC past it. -/
theorem clearDisplayZeroesEveryCell : Obligations.ClearDisplayZeroesEveryCell := by
  unfold Obligations.ClearDisplayZeroesEveryCell
  intro s
  exact ⟨_, rfl, Display.pixel_cleared, rfl, sameBut_setDisplay_advance s _, rfl⟩

end Sys2Proof.Machine
end

section
/-! The instructions that set a timer (45_keys_timers.md): what the timer becomes, when the sound output is active, and
that the timer and PC alone change. -/

namespace Sys2Proof.Machine

theorem soundActive_iff (s : State) : soundActive s = true ↔ 0 < s.st.toNat := decide_eq_true_iff

theorem sameBut_setDelay_advance (s : State) (b : Byte) : sameBut [.delay] s { s with dt := b }.advance := by
  intro p hp
  cases p with
  | delay => exact absurd List.mem_cons_self hp
  | stack => exact ⟨rfl, fun _ => rfl⟩
  | registers | memory | keys => exact fun _ => rfl
  | display => exact fun _ _ => rfl
  | index | sound | wait | halt | draws => rfl

theorem sameBut_setSound_advance (s : State) (b : Byte) : sameBut [.sound] s { s with st := b }.advance := by
  intro p hp
  cases p with
  | sound => exact absurd List.mem_cons_self hp
  | stack => exact ⟨rfl, fun _ => rfl⟩
  | registers | memory | keys => exact fun _ => rfl
  | display => exact fun _ _ => rfl
  | index | delay | wait | halt | draws => rfl

/-- Settles O48: each instruction is one write of Vx to its timer and the move of PC past it, and the sound output is
read from ST alone. -/
theorem timersAreSetFromVx : Obligations.TimersAreSetFromVx := by
  unfold Obligations.TimersAreSetFromVx
  intro s x
  refine ⟨?delayTimer, ?soundTimer⟩
  case delayTimer => exact ⟨_, rfl, rfl, rfl, sameBut_setDelay_advance s (s.reg x), rfl⟩
  case soundTimer =>
    have hsound : soundActive { s with st := s.reg x }.advance = true ↔ 0 < (s.reg x).toNat := by
      rw [soundActive_iff, State.advance_st]
    exact ⟨_, rfl, rfl, hsound, rfl, sameBut_setSound_advance s (s.reg x), rfl⟩

end Sys2Proof.Machine
end

section
/-! The decoder, the encoder and the opcode map (30_encoding.md, R76 and R93): a word is that of an instruction, to
which it then decodes, or it is unrecognized and matches no row. -/

namespace Sys2Proof

/-! ### Decoding an encoded instruction -/

/-- The decoder reads the opcode from the fields that the format fixes and the operands from the others. -/
theorem decode_encode (i : Instr) : decode (encode i) = .instruction i := by
  cases i with
  | cls | ret => rfl
  | jp | call | ldI | jpV0 => simp only [encode, decode, opField_encodeNnn, nnnField_encodeNnn, BitVec.ofNat_eq_ofNat]
  | seImm | sneImm | ldImm | addImm | rnd =>
    simp only [encode, decode, opField_encodeXkk, xField_encodeXkk, kkField_encodeXkk, BitVec.ofNat_eq_ofNat]
  | seReg | sneReg | drw =>
    simp only [encode, decode, opField_encodeXyn, xField_encodeXyn, yField_encodeXyn, nField_encodeXyn, if_true,
      BitVec.ofNat_eq_ofNat]
  | ldReg | orReg | andReg | xorReg | addReg | sub | shr | subn | shl =>
    simp only [encode, decode, decodeArithmetic, opField_encodeXyn, xField_encodeXyn, yField_encodeXyn,
      lowNibble_encodeXyn, BitVec.ofNat_eq_ofNat]
    rfl
  | skp | sknp =>
    simp only [encode, decode, decodeKey, opField_encodeXkk, xField_encodeXkk, kkField_encodeXkk,
      BitVec.ofNat_eq_ofNat]
  | ldVDt | ldVK | ldDtV | ldStV | addI | ldF | ldB | ldMemV | ldVMem =>
    simp only [encode, decode, decodeMisc, opField_encodeXkk, xField_encodeXkk, kkField_encodeXkk]
    rfl

theorem wordOfBytes_bytes (w : Word) : wordOfBytes (w.extractLsb' 8 8) (w.extractLsb' 0 8) = w := by
  apply BitVec.eq_of_toNat_eq
  rw [Machine.wordOfBytes_toNat]
  simp
  omega

theorem tableBytes_toNat (w : Word) : tableBytes 16 w.toNat = bytesOfWord w := by
  rw [tableBytes, Nat.mod_eq_of_lt w.isLt, BitVec.ofNat_toNat, BitVec.setWidth_eq]

theorem decodeBytes_bytesOfWord (w : Word) (rest : List Byte) :
    decodeBytes (bytesOfWord w ++ rest) = .word (decode w) := by
  simp only [bytesOfWord, List.cons_append, decodeBytes, wordOfBytes_bytes]

theorem decodeTableWord_toNat {w : Word} {i : Instr} (h : decode w = .instruction i) :
    decodeTableWord 16 w.toNat = some i := by
  have hbytes := decodeBytes_bytesOfWord w []
  rw [List.append_nil] at hbytes
  simp only [decodeTableWord, tableBytes_toNat, hbytes, h]

/-- Settles O1: the bytes and the table word of an instruction hold its word, which decodes to it. -/
theorem decodeOfEncodeIsTheInstruction : Obligations.DecodeOfEncodeIsTheInstruction := by
  unfold Obligations.DecodeOfEncodeIsTheInstruction
  intro i rest
  refine ⟨decode_encode i, ?_, decodeTableWord_toNat (decode_encode i)⟩
  rw [decodeBytes_bytesOfWord, decode_encode]

/-! ### Encoding a decoded word -/

theorem encodeNnn_of_fields {w : Word} {op : BitVec 4} (hop : opField w = op) : encodeNnn op (nnnField w) = w := by
  apply BitVec.eq_of_toNat_eq
  rw [encodeNnn_toNat, ← hop, opField_toNat, nnnField_toNat]
  omega

theorem encodeXkk_of_fields {w : Word} {op : BitVec 4} {kk : Byte} (hop : opField w = op) (hkk : kkField w = kk) :
    encodeXkk op (xField w) kk = w := by
  apply BitVec.eq_of_toNat_eq
  rw [encodeXkk_toNat, ← hop, ← hkk, opField_toNat, xField_val, kkField_toNat]
  omega

theorem encodeXyn_of_fields {w : Word} {op : BitVec 4} {n : Fin 16} (hop : opField w = op) (hn : nField w = n) :
    encodeXyn op (xField w) (yField w) n = w := by
  apply BitVec.eq_of_toNat_eq
  rw [encodeXyn_toNat, ← hop, ← hn, opField_toNat, xField_val, yField_val, nField_val]
  omega

/-- What the decoder answers on `w`: an instruction whose word is `w`, or that `w` is unrecognized. -/
inductive DecodeCase (w : Word) : Decoded → Prop where
  | instruction {i : Instr} (hencode : encode i = w) : DecodeCase w (.instruction i)
  | unknown : DecodeCase w (.unknown w)

theorem decodeCase_arithmetic {w : Word} (hop : opField w = 0x8) : DecodeCase w (decodeArithmetic w) := by
  unfold decodeArithmetic
  split
  case h_10 => exact .unknown
  all_goals
    next hn => exact .instruction (encodeXyn_of_fields hop (congrArg BitVec.toFin hn))

theorem decodeCase_key {w : Word} (hop : opField w = 0xE) : DecodeCase w (decodeKey w) := by
  unfold decodeKey
  split
  case h_3 => exact .unknown
  all_goals
    next hkk => exact .instruction (encodeXkk_of_fields hop hkk)

theorem decodeCase_misc {w : Word} (hop : opField w = 0xF) : DecodeCase w (decodeMisc w) := by
  unfold decodeMisc
  split
  case h_10 => exact .unknown
  all_goals
    next hkk => exact .instruction (encodeXkk_of_fields hop hkk)

theorem decodeCase_decode (w : Word) : DecodeCase w (decode w) := by
  unfold decode
  split
  case h_1 hop =>
    split
    next hw => exact .instruction hw.symm
    next =>
      split
      next hw => exact .instruction hw.symm
      next => exact .unknown
  case h_6 | h_10 =>
    next hop =>
      split
      next hn => exact .instruction (encodeXyn_of_fields hop hn)
      next => exact .unknown
  case h_2 | h_3 | h_11 | h_12 => exact .instruction (encodeNnn_of_fields ‹_›)
  case h_4 | h_5 | h_7 | h_8 | h_13 => exact .instruction (encodeXkk_of_fields ‹_› rfl)
  case h_9 hop => exact decodeCase_arithmetic hop
  case h_14 hop => exact .instruction (encodeXyn_of_fields hop rfl)
  case h_15 hop => exact decodeCase_key hop
  case h_16 =>
    have hop : opField w = 0xF := by
      simp only [imp_false] at *
      bv_omega
    exact decodeCase_misc hop

theorem encode_of_decode {w : Word} {i : Instr} (h : decode w = .instruction i) : encode i = w := by
  cases h ▸ decodeCase_decode w with
  | instruction hencode => exact hencode

/-- An unrecognized word is named by itself (R90). -/
theorem eq_of_decode_unknown {w w' : Word} (h : decode w = .unknown w') : w' = w := by
  cases h ▸ decodeCase_decode w with
  | unknown => rfl

/-- Settles O2: every branch of the decoder that answers an instruction has read all the fields of the word. -/
theorem encodeOfDecodeIsTheWord : Obligations.EncodeOfDecodeIsTheWord := by
  unfold Obligations.EncodeOfDecodeIsTheWord
  intro w i h
  exact encode_of_decode h

/-! ### The rows of the opcode map -/

theorem encodedRow (i : Instr) : Laws.EncodedRow.Statement i := by
  cases i with
  | cls => exact Laws.EncodedRow.cls
  | ret => exact Laws.EncodedRow.ret
  | jp nnn => exact Laws.EncodedRow.jp nnn
  | call nnn => exact Laws.EncodedRow.call nnn
  | seImm x kk => exact Laws.EncodedRow.seImm x kk
  | sneImm x kk => exact Laws.EncodedRow.sneImm x kk
  | seReg x y => exact Laws.EncodedRow.seReg x y
  | ldImm x kk => exact Laws.EncodedRow.ldImm x kk
  | addImm x kk => exact Laws.EncodedRow.addImm x kk
  | ldReg x y => exact Laws.EncodedRow.ldReg x y
  | orReg x y => exact Laws.EncodedRow.orReg x y
  | andReg x y => exact Laws.EncodedRow.andReg x y
  | xorReg x y => exact Laws.EncodedRow.xorReg x y
  | addReg x y => exact Laws.EncodedRow.addReg x y
  | sub x y => exact Laws.EncodedRow.sub x y
  | shr x y => exact Laws.EncodedRow.shr x y
  | subn x y => exact Laws.EncodedRow.subn x y
  | shl x y => exact Laws.EncodedRow.shl x y
  | sneReg x y => exact Laws.EncodedRow.sneReg x y
  | ldI nnn => exact Laws.EncodedRow.ldI nnn
  | jpV0 nnn => exact Laws.EncodedRow.jpV0 nnn
  | rnd x kk => exact Laws.EncodedRow.rnd x kk
  | drw x y n => exact Laws.EncodedRow.drw x y n
  | skp x => exact Laws.EncodedRow.skp x
  | sknp x => exact Laws.EncodedRow.sknp x
  | ldVDt x => exact Laws.EncodedRow.ldVDt x
  | ldVK x => exact Laws.EncodedRow.ldVK x
  | ldDtV x => exact Laws.EncodedRow.ldDtV x
  | ldStV x => exact Laws.EncodedRow.ldStV x
  | addI x => exact Laws.EncodedRow.addI x
  | ldF x => exact Laws.EncodedRow.ldF x
  | ldB x => exact Laws.EncodedRow.ldB x
  | ldMemV x => exact Laws.EncodedRow.ldMemV x
  | ldVMem x => exact Laws.EncodedRow.ldVMem x

/-- A field that the mask fixes reads in a word of the row as it does in the row's pattern. -/
theorem extractLsb'_of_and_mask {w m p : Word} {start len : Nat} (h : w &&& m = p)
    (hfixed : m.extractLsb' start len = BitVec.allOnes len) : w.extractLsb' start len = p.extractLsb' start len := by
  rw [← h, BitVec.extractLsb'_and, hfixed, BitVec.and_allOnes]

/-- A word that matches the row of an instruction decodes to an instruction of that row: the mask fixes the fields that
the decoder branches on (R76, R93). -/
theorem exists_decode_of_covers {i : Instr} {w : Word} (h : i.row.covers w = true) :
    ∃ j : Instr, decode w = .instruction j ∧ j.row = i.row := by
  have hand : w &&& i.row.mask = i.row.pattern := beq_iff_eq.mp h
  cases i with
  | cls | ret =>
    obtain rfl : w = _ := BitVec.and_allOnes.symm.trans hand
    exact ⟨_, rfl, rfl⟩
  | jp | call | seImm | sneImm | ldImm | addImm | ldI | jpV0 | rnd | drw =>
    simp only [Instr.row] at hand
    have hop : opField w = _ := extractLsb'_of_and_mask hand (by decide)
    unfold decode
    rw [hop]
    exact ⟨_, rfl, rfl⟩
  | seReg | sneReg =>
    simp only [Instr.row] at hand
    have hop : opField w = _ := extractLsb'_of_and_mask hand (by decide)
    have hn : nField w = _ := congrArg BitVec.toFin (extractLsb'_of_and_mask hand (by decide))
    unfold decode
    rw [hop, hn]
    exact ⟨_, rfl, rfl⟩
  | ldReg | orReg | andReg | xorReg | addReg | sub | shr | subn | shl =>
    simp only [Instr.row] at hand
    have hop : opField w = _ := extractLsb'_of_and_mask hand (by decide)
    have hn : w.extractLsb' 0 4 = _ := extractLsb'_of_and_mask hand (by decide)
    unfold decode decodeArithmetic
    rw [hop, hn]
    exact ⟨_, rfl, rfl⟩
  | skp | sknp =>
    simp only [Instr.row] at hand
    have hop : opField w = _ := extractLsb'_of_and_mask hand (by decide)
    have hkk : kkField w = _ := extractLsb'_of_and_mask hand (by decide)
    unfold decode decodeKey
    rw [hop, hkk]
    exact ⟨_, rfl, rfl⟩
  | ldVDt | ldVK | ldDtV | ldStV | addI | ldF | ldB | ldMemV | ldVMem =>
    simp only [Instr.row] at hand
    have hop : opField w = _ := extractLsb'_of_and_mask hand (by decide)
    have hkk : kkField w = _ := extractLsb'_of_and_mask hand (by decide)
    unfold decode decodeMisc
    rw [hop, hkk]
    exact ⟨_, rfl, rfl⟩

theorem wordWellFormed_iff (w : Word) : wordWellFormed w = true ↔ ∃ r ∈ opcodeMap, r.covers w = true :=
  List.any_eq_true

theorem wordWellFormed_encode (i : Instr) : wordWellFormed (encode i) = true := by
  obtain ⟨hcovers, hmem⟩ := encodedRow i
  exact (wordWellFormed_iff _).mpr ⟨i.row, hmem, hcovers⟩

/-- Settles O3: a word of a row decodes to an instruction of that row, and a word that decodes is the word of its
instruction, which lies in the instruction's row. -/
theorem decoderAcceptsExactlyTheOpcodeMap : Obligations.DecoderAcceptsExactlyTheOpcodeMap := by
  unfold Obligations.DecoderAcceptsExactlyTheOpcodeMap
  intro w
  constructor
  · intro hwell
    obtain ⟨r, hr, hcovers⟩ := (wordWellFormed_iff w).mp hwell
    obtain ⟨i, -, rfl⟩ := List.mem_map.mp hr
    obtain ⟨j, hdecode, hrow⟩ := exists_decode_of_covers hcovers
    exact ⟨j, hdecode, hrow ▸ hcovers⟩
  · intro hill
    cases hdecode : decode w with
    | unknown w' => rw [eq_of_decode_unknown hdecode]
    | instruction i =>
      rw [← encode_of_decode hdecode, wordWellFormed_encode] at hill
      exact absurd hill (by decide)

/-- Two different rows of the map differ on a bit that both masks fix (R76). -/
theorem opcodeMap_rows_differ :
    ∀ r ∈ opcodeMap, ∀ r' ∈ opcodeMap, r.pattern &&& r'.mask = r'.pattern &&& r.mask → r = r' := by
  decide

/-- Settles O4: on the bits that both masks fix, a word of both rows reads as each pattern does. -/
theorem opcodeRowsAreDisjoint : Obligations.OpcodeRowsAreDisjoint := by
  unfold Obligations.OpcodeRowsAreDisjoint
  intro w r r' hr hr' hcovers hcovers'
  have hand : w &&& r.mask = r.pattern := beq_iff_eq.mp hcovers
  have hand' : w &&& r'.mask = r'.pattern := beq_iff_eq.mp hcovers'
  refine opcodeMap_rows_differ r hr r' hr' ?_
  rw [← hand, ← hand', BitVec.and_assoc, BitVec.and_assoc, BitVec.and_comm r.mask]

/-! ### The unrecognized words -/

theorem decodeArithmetic_unknown_iff (w : Word) :
    decodeArithmetic w = .unknown w ↔ w.toNat % 16 ∈ [0x8, 0x9, 0xA, 0xB, 0xC, 0xD, 0xF] := by
  rw [← lowNibble_toNat]
  unfold decodeArithmetic
  split
  case h_10 =>
    simp only [imp_false, List.mem_cons, List.not_mem_nil, true_iff, or_false] at *
    bv_omega
  all_goals
    next hn => simp [hn]

theorem decodeKey_unknown_iff (w : Word) : decodeKey w = .unknown w ↔ w.toNat % 256 ∉ [0x9E, 0xA1] := by
  rw [← kkField_toNat]
  unfold decodeKey
  split
  case h_3 =>
    simp only [imp_false, List.mem_cons, List.not_mem_nil, true_iff, or_false] at *
    bv_omega
  all_goals
    next hkk => simp [hkk]

theorem decodeMisc_unknown_iff (w : Word) :
    decodeMisc w = .unknown w ↔ w.toNat % 256 ∉ [0x07, 0x0A, 0x15, 0x18, 0x1E, 0x29, 0x33, 0x55, 0x65] := by
  rw [← kkField_toNat]
  unfold decodeMisc
  split
  case h_10 =>
    simp only [imp_false, List.mem_cons, List.not_mem_nil, true_iff, or_false] at *
    bv_omega
  all_goals
    next hkk => simp [hkk]

theorem nField_eq_zero_iff (w : Word) : nField w = 0 ↔ w.toNat % 16 = 0 := by
  rw [← nField_val, Fin.val_eq_zero_iff]

/-- Settles O5: the top nibble selects the branch of the decoder, and each branch names the low bits it refuses. -/
theorem unrecognizedWordsAreThoseListed : Obligations.UnrecognizedWordsAreThoseListed := by
  unfold Obligations.UnrecognizedWordsAreThoseListed
  intro w
  rw [← opField_toNat]
  unfold decode
  split
  case h_1 hop =>
    simp only [hop]
    split
    next hw => simp [hw]
    next hcls =>
      split
      next hw => simp [hw]
      next hret => simpa using ⟨hcls, hret⟩
  case h_6 hop => simp [hop, nField_eq_zero_iff]
  case h_10 hop => simp [hop, nField_eq_zero_iff]
  case h_9 hop => simp [hop, decodeArithmetic_unknown_iff]
  case h_15 hop => simp [hop, decodeKey_unknown_iff]
  case h_16 =>
    have hop : opField w = 0xF := by
      simp only [imp_false] at *
      bv_omega
    simp [hop, decodeMisc_unknown_iff]
  all_goals
    next hop => simp [hop]

/-! ### Words written out -/

/-- Settles O7: each listed word is the encoding of its instruction, and the last one is refused by its low nibble. -/
theorem sampleWordsDecode : Obligations.SampleWordsDecode := by
  unfold Obligations.SampleWordsDecode
  exact ⟨decode_encode .ret, decode_encode (.call 0x20A), decode_encode (.subn 3 5), decode_encode (.ldI 0x2F0),
    decode_encode (.drw 1 2 5), decode_encode (.ldMemV 2), decode_encode (.sknp 7), decode_encode (.ldVDt 0xB), rfl⟩

end Sys2Proof
end

section
/-! A block of bytes written to memory (20_memory.md, R14 and R61), read back byte by byte. -/

namespace Sys2Proof.Machine

theorem Memory.read_writeBlock_inside {bs : List Byte} {k : Nat} (h : k < bs.length) (m : Memory) (start : Nat) :
    Memory.read (Memory.writeBlock m start bs) (start + k) = bs.getD k 0 := by
  rw [Memory.read_writeBlock, if_pos (by omega), Nat.add_sub_cancel_left]

theorem Memory.read_writeBlock_outside {bs : List Byte} {start a : Nat} (h : a < start ∨ start + bs.length ≤ a)
    (m : Memory) : Memory.read (Memory.writeBlock m start bs) a = Memory.read m a := by
  rw [Memory.read_writeBlock, if_neg (by omega)]

end Sys2Proof.Machine
end

section
/-! What an instruction does (40_step.md, R105; 60_exceptions.md, R230): the fault it raises, if any, and the state it
leaves when it raises none. -/

namespace Sys2Proof.Machine

/-! ### The fault of an instruction -/

/-- The cause of the fault that reaching `len` bytes from `start` raises (R173), none when they all lie in memory. -/
def rangeFault (start : Word) (len : Nat) : Option FaultCause :=
  if inBounds start len then none else some (.memoryOutOfBounds (firstOutside start))

/-- The cause of the fault that naming the key `k` raises (R212), none when there is such a key. -/
def keyFault (k : Byte) : Option FaultCause := if 15 < k.toNat then some (.keyOutOfRange k) else none

/-- The cause of the fault that the instruction raises in `s` (R230), none when it completes. -/
def faultOf (i : Instr) (s : State) : Option FaultCause :=
  match i with
  | .ret => if s.sp.val = 0 then some .stackUnderflow else none
  | .call _ => if s.sp.val = 16 then some .stackOverflow else none
  | .drw _ _ n => rangeFault s.i n.val
  | .skp x | .sknp x => keyFault (s.reg x)
  | .ldB _ => rangeFault s.i 3
  | .ldMemV x | .ldVMem x => rangeFault s.i (x.val + 1)
  | _ => none

/-- The record that a fault with this cause leaves in `s` (R231). -/
def State.record (s : State) (c : FaultCause) : FaultRecord := { pc := s.pc, cause := c }

/-- The state that a raised fault leaves (R231). -/
def State.faulted (s : State) (c : FaultCause) : State := { s with halt := some (s.record c) }

/-! ### The state that an instruction leaves -/

/-- The state after the instruction when it raises no fault, as the spec gives it for each: the meaning of `exec` with its
checks taken out (`exec_eq`). -/
def completed (i : Instr) (s : State) : State :=
  match i with
  | .cls => { s with disp := Vector.replicate 32 0 }.advance
  | .ret => { s with sp := ⟨s.sp.val - 1, by omega⟩ }.jump (s.stack[s.sp.val - 1] + 2)
  | .jp nnn => s.jump (addressOperand nnn)
  | .call nnn => ((s.push s.pc).getD s).jump (addressOperand nnn)
  | .seImm x kk => s.skipIf (s.reg x == kk)
  | .sneImm x kk => s.skipIf (s.reg x != kk)
  | .seReg x y => s.skipIf (s.reg x == s.reg y)
  | .ldImm x kk => (s.setReg x kk).advance
  | .addImm x kk => (s.setReg x (sumByte (s.reg x) kk)).advance
  | .ldReg x y => (s.setReg x (s.reg y)).advance
  | .orReg x y => (s.setReg x (s.reg x ||| s.reg y)).advance
  | .andReg x y => (s.setReg x (s.reg x &&& s.reg y)).advance
  | .xorReg x y => (s.setReg x (s.reg x ^^^ s.reg y)).advance
  | .addReg x y => (s.setRegFlag x (sumByte (s.reg x) (s.reg y)) (carryFlag (s.reg x) (s.reg y))).advance
  | .sub x y => (s.setRegFlag x (diffByte (s.reg x) (s.reg y)) (noBorrowFlag (s.reg x) (s.reg y))).advance
  | .shr x _ => (s.setRegFlag x (shiftRight (s.reg x)) (lowBitFlag (s.reg x))).advance
  | .subn x y => (s.setRegFlag x (diffByte (s.reg y) (s.reg x)) (noBorrowFlag (s.reg y) (s.reg x))).advance
  | .shl x _ => (s.setRegFlag x (shiftLeft (s.reg x)) (highBitFlag (s.reg x))).advance
  | .sneReg x y => s.skipIf (s.reg x != s.reg y)
  | .ldI nnn => { s with i := addressOperand nnn }.advance
  | .jpV0 nnn => s.jump (relativeTarget nnn (s.reg Reg.zero))
  | .rnd x kk => (s.draw.2.setReg x (s.draw.1 &&& kk)).advance
  | .drw x y n =>
    ({ s with disp := (composite s x y n).disp }.setReg Reg.flag (collisionFlag (composite s x y n).collision)).advance
  | .skp x => s.skipIf (s.keyAt (s.reg x) == some true)
  | .sknp x => s.skipIf (s.keyAt (s.reg x) == some false)
  | .ldVDt x => (s.setReg x s.dt).advance
  | .ldVK x => { s with wait := some x }
  | .ldDtV x => { s with dt := s.reg x }.advance
  | .ldStV x => { s with st := s.reg x }.advance
  | .addI x => ({ s with i := indexSum s.i (s.reg x) }.setReg Reg.flag (indexOverflowFlag s.i (s.reg x))).advance
  | .ldF x => { s with i := glyphAddress (s.reg x) }.advance
  | .ldB x => { s with mem := Memory.writeBlock s.mem s.i.toNat (bcdDigits (s.reg x)) }.advance
  | .ldMemV x => { s with mem := Memory.writeBlock s.mem s.i.toNat (s.regsThrough x) }.advance
  | .ldVMem x => { s with v := loadRegs s.v 0 (Memory.readBlock s.mem s.i.toNat (x.val + 1)) }.advance

/-- The state after the instruction, a raised fault included. -/
def executed (i : Instr) (s : State) : State :=
  match faultOf i s with
  | some c => s.faulted c
  | none => completed i s

theorem executed_of_fault {i : Instr} {s : State} {c : FaultCause} (h : faultOf i s = some c) :
    executed i s = s.faulted c := by
  simp only [executed, h]

theorem executed_of_no_fault {i : Instr} {s : State} (h : faultOf i s = none) : executed i s = completed i s := by
  simp only [executed, h]

theorem rangeFault_inside {a : Word} {len : Nat} (h : len = 0 ∨ a.toNat + len ≤ Config.memorySize) :
    rangeFault a len = none := if_pos ((inBounds_iff a len).mpr h)

theorem rangeFault_outside {a : Word} {len : Nat} (h : ¬(len = 0 ∨ a.toNat + len ≤ Config.memorySize)) :
    rangeFault a len = some (.memoryOutOfBounds (firstOutside a)) := if_neg (mt (inBounds_iff a len).mp h)

theorem exec_eq_of_fault {i : Instr} {s : State} {c : FaultCause} (hexec : exec i s = raise c s)
    (hfault : faultOf i s = some c) : exec i s = .next (executed i s) := by
  rw [hexec, executed_of_fault hfault]
  rfl

theorem exec_eq_of_no_fault {i : Instr} {s : State} (hexec : exec i s = .next (completed i s))
    (hfault : faultOf i s = none) : exec i s = .next (executed i s) := by
  rw [hexec, executed_of_no_fault hfault]

theorem exec_eq_of_withRange {i : Instr} {s : State} {a : Word} {len : Nat}
    (hexec : exec i s = withRange a len s (.next (completed i s))) (hfault : faultOf i s = rangeFault a len) :
    exec i s = .next (executed i s) := by
  by_cases h : len = 0 ∨ a.toNat + len ≤ Config.memorySize
  · exact exec_eq_of_no_fault (hexec.trans (withRange_inside h s _)) (hfault.trans (rangeFault_inside h))
  · exact exec_eq_of_fault (hexec.trans (withRange_outside h s _)) (hfault.trans (rangeFault_outside h))

theorem completed_call {s : State} (h : s.sp.val < 16) (nnn : Addr12) :
    completed (.call nnn) s = { s with
      stack := s.stack.set s.sp.val s.pc
      sp := ⟨s.sp.val + 1, by omega⟩ }.jump (addressOperand nnn) := by
  simp only [completed, push_room h, Option.getD_some]

theorem completed_skp {s : State} {x : Reg} (h : (s.reg x).toNat < 16) :
    completed (.skp x) s = s.skipIf s.keys[(s.reg x).toNat] := by
  simp [completed, keyAt_some h]

theorem completed_sknp {s : State} {x : Reg} (h : (s.reg x).toNat < 16) :
    completed (.sknp x) s = s.skipIf (!s.keys[(s.reg x).toNat]) := by
  simp [completed, keyAt_some h]

/-- What every instruction does: it answers a next state, in which it has raised its fault or has completed. -/
theorem exec_eq (i : Instr) (s : State) : exec i s = .next (executed i s) := by
  cases i with
  | ret =>
    by_cases h : s.sp.val = 0
    · exact exec_eq_of_fault (execRet_underflow h) (if_pos h)
    · exact exec_eq_of_no_fault (execRet_pops h) (if_neg h)
  | call nnn =>
    by_cases h : s.sp.val = 16
    · exact exec_eq_of_fault (execCall_overflow h nnn) (if_pos h)
    · have hroom : s.sp.val < 16 := by omega
      exact exec_eq_of_no_fault (completed_call hroom nnn ▸ execCall_pushes hroom nnn) (if_neg h)
  | skp x =>
    by_cases h : 15 < (s.reg x).toNat
    · exact exec_eq_of_fault (execSkp_outOfRange h) (if_pos h)
    · have hkey : (s.reg x).toNat < 16 := by omega
      exact exec_eq_of_no_fault (completed_skp hkey ▸ execSkp_key hkey) (if_neg h)
  | sknp x =>
    by_cases h : 15 < (s.reg x).toNat
    · exact exec_eq_of_fault (execSknp_outOfRange h) (if_pos h)
    · have hkey : (s.reg x).toNat < 16 := by omega
      exact exec_eq_of_no_fault (completed_sknp hkey ▸ execSknp_key hkey) (if_neg h)
  | drw | ldB | ldMemV | ldVMem => exact exec_eq_of_withRange rfl rfl
  | _ => rfl

/-- The cases of an instruction that has answered `t`. -/
theorem exec_cases {i : Instr} {s t : State} (h : exec i s = .next t) :
    (∃ c, faultOf i s = some c ∧ t = s.faulted c) ∨ (faultOf i s = none ∧ t = completed i s) := by
  obtain rfl : executed i s = t := Host.Outcome.next.inj ((exec_eq i s).symm.trans h)
  cases hfault : faultOf i s with
  | some c => exact .inl ⟨c, rfl, executed_of_fault hfault⟩
  | none => exact .inr ⟨rfl, executed_of_no_fault hfault⟩

theorem sp_ne_zero_of_ret {s : State} (h : faultOf .ret s = none) : s.sp.val ≠ 0 := by
  intro hempty
  exact Option.some_ne_none _ ((if_pos hempty).symm.trans h)

theorem sp_lt_of_call {s : State} {nnn : Addr12} (h : faultOf (.call nnn) s = none) : s.sp.val < 16 := by
  have hne : s.sp.val ≠ 16 := fun hfull => Option.some_ne_none _ ((if_pos hfull).symm.trans h)
  omega

/-- Only a fault halts the core (R231). -/
theorem completed_halt {i : Instr} {s : State} (h : faultOf i s = none) : (completed i s).halt = s.halt := by
  cases i with
  | call nnn =>
    rw [completed_call (sp_lt_of_call h)]
    rfl
  | seImm | sneImm | seReg | sneReg | skp | sknp => exact State.skipIf_halt s _
  | _ => rfl

/-! ### When an instruction faults -/

theorem firstOutside_eq (a : Word) : firstOutside a = BitVec.ofNat 16 (max a.toNat 0x1000) := by
  apply BitVec.eq_of_toNat_eq
  rw [firstOutside_toNat, BitVec.toNat_ofNat]
  omega

theorem rangeFault_eq {a : Word} {len : Nat} {p : Prop} [Decidable p] (hp : p ↔ ¬(len = 0 ∨ a.toNat + len ≤ 0x1000)) :
    rangeFault a len = if p then some (.memoryOutOfBounds (BitVec.ofNat 16 (max a.toNat 0x1000))) else none := by
  by_cases h : len = 0 ∨ a.toNat + len ≤ 0x1000
  · rw [rangeFault_inside h, if_neg fun hp' => hp.mp hp' h]
  · rw [rangeFault_outside h, if_pos (hp.mpr h), firstOutside_eq]

theorem executed_halt (i : Instr) {s : State} (hs : s.halt = none) :
    (executed i s).halt = (faultOf i s).map s.record := by
  cases hfault : faultOf i s with
  | some c =>
    rw [executed_of_fault hfault]
    rfl
  | none =>
    rw [executed_of_no_fault hfault, completed_halt hfault, hs]
    rfl

theorem record_of_rangeFault (s : State) {len : Nat} {p : Prop} [Decidable p]
    (hp : p ↔ ¬(len = 0 ∨ s.i.toNat + len ≤ 0x1000)) :
    (rangeFault s.i len).map s.record =
      if p then some { pc := s.pc, cause := .memoryOutOfBounds (BitVec.ofNat 16 (max s.i.toNat 0x1000)) } else none := by
  rw [rangeFault_eq hp]
  exact apply_ite _ _ _ _

/-- Settles O17: an instruction answers a next state, and the record in it is that of `faultOf`, whose condition is the
listed one. -/
theorem instructionsFaultExactlyAsListed : Obligations.InstructionsFaultExactlyAsListed := by
  unfold Obligations.InstructionsFaultExactlyAsListed
  intro i s hs
  refine ⟨executed i s, exec_eq i s, ?_⟩
  rw [executed_halt i hs]
  cases i with
  | ret | call | skp | sknp => exact apply_ite _ _ _ _
  | drw | ldB | ldMemV | ldVMem => exact record_of_rangeFault s (by omega)
  | _ => rfl

end Sys2Proof.Machine
end

section
/-! Which parts of the state an instruction writes and how it moves PC (10_state.md, R21 and R22; 40_step.md, R105). -/

namespace Sys2Proof.Machine

/-! ### Updates of the state and its parts -/

/-- The fields that hold a part are the same in two states. -/
def Part.unchanged (p : Part) (s t : State) : Prop :=
  match p with
  | .registers => t.v = s.v
  | .index => t.i = s.i
  | .stack => (t.sp, t.stack) = (s.sp, s.stack)
  | .delay => t.dt = s.dt
  | .sound => t.st = s.st
  | .memory => t.mem = s.mem
  | .display => t.disp = s.disp
  | .keys => t.keys = s.keys
  | .wait => t.wait = s.wait
  | .halt => t.halt = s.halt
  | .draws => t.draws = s.draws

theorem Part.same_of_unchanged {p : Part} {s t : State} (h : p.unchanged s t) : p.same s t := by
  cases p with
  | stack =>
    obtain ⟨hsp, hstack⟩ := Prod.mk.inj h
    exact ⟨hsp, fun k => by rw [hstack]⟩
  | registers => exact fun r => congrArg (fun v : Vector Byte 16 => v[r]) h
  | memory => exact fun a => congrArg (Memory.read · a) h
  | display => exact fun x y => congrArg (Display.pixel · x y) h
  | keys => exact fun k => congrArg (fun v : Vector Bool 16 => v[k]) h
  | index | delay | sound | wait | halt | draws => exact h

theorem sameBut_of_unchanged {changed : List Part} {s t : State} (h : ∀ p, p ∉ changed → p.unchanged s t) :
    sameBut changed s t := fun p hp => Part.same_of_unchanged (h p hp)

theorem sameBut_refl (changed : List Part) (s : State) : sameBut changed s s :=
  sameBut_of_unchanged fun p _ => by cases p <;> rfl

theorem sameBut.mono {changed changed' : List Part} {s t : State} (h : sameBut changed s t)
    (hsub : changed ⊆ changed') : sameBut changed' s t := fun p hp => h p fun hmem => hp (hsub hmem)

theorem Part.same_trans {p : Part} {s t u : State} (h : p.same s t) (h' : p.same t u) : p.same s u := by
  cases p with
  | stack => exact ⟨h'.1.trans h.1, fun k => (h'.2 k).trans (h.2 k)⟩
  | registers | memory | keys => exact fun a => (h' a).trans (h a)
  | display => exact fun x y => (h' x y).trans (h x y)
  | index | delay | sound | wait | halt | draws => exact Eq.trans h' h

theorem sameBut.trans {changed : List Part} {s t u : State} (h : sameBut changed s t) (h' : sameBut changed t u) :
    sameBut changed s u := fun p hp => Part.same_trans (h p hp) (h' p hp)

theorem sameBut_registers (s : State) (v : Vector Byte 16) (pc : Word) :
    sameBut [.registers] s { s with v := v, pc := pc } := sameBut_of_unchanged fun p hp => by
  cases p with
  | registers => exact absurd List.mem_cons_self hp
  | _ => rfl

theorem sameBut_index_registers (s : State) (i : Word) (v : Vector Byte 16) (pc : Word) :
    sameBut [.index, .registers] s { s with i := i, v := v, pc := pc } := sameBut_of_unchanged fun p hp => by
  cases p with
  | index | registers => exact absurd (by decide) hp
  | _ => rfl

theorem sameBut_registers_draws (s : State) (v : Vector Byte 16) (draws : Nat) (pc : Word) :
    sameBut [.registers, .draws] s { s with v := v, draws := draws, pc := pc } := sameBut_of_unchanged fun p hp => by
  cases p with
  | registers | draws => exact absurd (by decide) hp
  | _ => rfl

theorem sameBut_registers_display (s : State) (v : Vector Byte 16) (d : Display) (pc : Word) :
    sameBut [.registers, .display] s { s with v := v, disp := d, pc := pc } := sameBut_of_unchanged fun p hp => by
  cases p with
  | registers | display => exact absurd (by decide) hp
  | _ => rfl

theorem sameBut_stack (s : State) (sp : Fin 17) (stack : Vector Word 16) (pc : Word) :
    sameBut [.stack] s { s with sp := sp, stack := stack, pc := pc } := sameBut_of_unchanged fun p hp => by
  cases p with
  | stack => exact absurd List.mem_cons_self hp
  | _ => rfl

theorem sameBut_memory (s : State) (m : Memory) (pc : Word) :
    sameBut [.memory] s { s with mem := m, pc := pc } := sameBut_of_unchanged fun p hp => by
  cases p with
  | memory => exact absurd List.mem_cons_self hp
  | _ => rfl

theorem sameBut_wait (s : State) (w : Option Reg) : sameBut [.wait] s { s with wait := w } :=
  sameBut_of_unchanged fun p hp => by
    cases p with
    | wait => exact absurd List.mem_cons_self hp
    | _ => rfl

theorem sameBut_faulted {changed : List Part} (hhalt : .halt ∈ changed) (s : State) (c : FaultCause) :
    sameBut changed s (s.faulted c) := sameBut_of_unchanged fun p hp => by
  cases p with
  | halt => exact absurd hhalt hp
  | _ => rfl

theorem sameBut.or_halt {changed : List Part} {s t : State} (h : sameBut changed s t) :
    sameBut (changed ++ [.halt]) s t := fun p hp => h p fun hmem => hp (List.mem_append_left _ hmem)

theorem registersBut_setRegFlag_advance (s : State) (x : Reg) (b flag : Byte) :
    registersBut [x, 0xF] s (s.setRegFlag x b flag).advance := by
  intro r hr
  simp only [List.mem_cons, List.not_mem_nil, or_false, not_or] at hr
  obtain ⟨hx, hflag⟩ := hr
  exact (State.reg_setRegFlag s x r b flag).trans ((if_neg hflag).trans (if_neg hx))

/-- A block load writes no register above Vx (R178). -/
theorem reg_loadRegs_above (s : State) {x r : Reg} (h : x < r) :
    (completed (.ldVMem x) s).reg r = s.reg r := by
  have hval : x.val < r.val := h
  have hlen : ¬(0 ≤ r.val ∧ r.val < 0 + (Memory.readBlock s.mem s.i.toNat (x.val + 1)).length) := by
    rw [Memory.length_readBlock]
    omega
  exact (getElem_loadRegs _ s.v 0 r.val r.isLt).trans (if_neg hlen)

/-! ### The frame of every instruction -/

/-- Settles O35: a raised fault writes `halt` alone, and the update of each instruction writes the listed parts. -/
theorem instructionsWriteOnlyTheirParts : Obligations.InstructionsWriteOnlyTheirParts := by
  unfold Obligations.InstructionsWriteOnlyTheirParts
  intro i s t h
  obtain ⟨c, hfault, rfl⟩ | ⟨hfault, rfl⟩ := exec_cases h
  · cases i with
    | ret | call | skp | sknp | ldB | ldMemV => exact sameBut_faulted (by decide) s c
    | drw | ldVMem => exact ⟨sameBut_faulted (by decide) s c, fun _ _ => rfl⟩
    | _ => cases hfault
  · cases i with
    | cls => exact sameBut_setDisplay_advance s _
    | jp | jpV0 => exact sameBut_jump [] s _
    | seImm | sneImm | seReg | sneReg => exact sameBut_skipIf [] s _
    | skp | sknp => exact sameBut_skipIf [.halt] s _
    | ret => exact (sameBut_stack s _ _ _).or_halt
    | call nnn =>
      dsimp only
      rw [completed_call (sp_lt_of_call hfault)]
      exact (sameBut_stack s _ _ _).or_halt
    | ldI | ldF => exact sameBut_setIndex_advance s _
    | ldDtV => exact sameBut_setDelay_advance s _
    | ldStV => exact sameBut_setSound_advance s _
    | ldVK => exact sameBut_wait s _
    | ldB | ldMemV => exact (sameBut_memory s _ _).or_halt
    | ldImm | addImm | ldReg | orReg | andReg | xorReg | ldVDt =>
      exact ⟨sameBut_setReg_advance s _ _, registersBut_setReg_advance s _ _⟩
    | addReg | sub | shr | subn | shl =>
      exact ⟨sameBut_registers s _ _, registersBut_setRegFlag_advance s _ _ _⟩
    | rnd => exact ⟨sameBut_registers_draws s _ _ _, registersBut_setReg_advance s.draw.2 _ _⟩
    | addI => exact ⟨sameBut_index_registers s _ _ _, registersBut_setReg_advance { s with i := _ } Reg.flag _⟩
    | drw =>
      exact ⟨(sameBut_registers_display s _ _ _).or_halt, registersBut_setReg_advance { s with disp := _ } Reg.flag _⟩
    | ldVMem => exact ⟨(sameBut_registers s _ _).or_halt, fun _ => reg_loadRegs_above s⟩

/-! ### The flag register -/

theorem flagByte_eq_zero_or_one (c : Bool) : flagByte c = 0 ∨ flagByte c = 1 := by
  cases c with
  | false => exact .inl rfl
  | true => exact .inr rfl

theorem reg_flag_setRegFlag_advance (s : State) (x : Reg) (b flag : Byte) :
    (s.setRegFlag x b flag).advance.reg 0xF = flag := (State.reg_setRegFlag s x 0xF b flag).trans (if_pos rfl)

theorem reg_setReg_advance_same (s : State) (x : Reg) (b : Byte) : (s.setReg x b).advance.reg x = b := by
  rw [State.advance_reg, State.reg_setReg, if_pos rfl]

/-- Settles O34: the flag-defining instructions write a `flagByte` to VF last, and the frame of every other one keeps
the registers other than its destination. -/
theorem flagRegisterIsWrittenExactlyByItsInstructions : Obligations.FlagRegisterIsWrittenExactlyByItsInstructions := by
  unfold Obligations.FlagRegisterIsWrittenExactlyByItsInstructions
  intro i s t _ h ht
  have hframe := instructionsWriteOnlyTheirParts i s t h
  obtain ⟨c, -, rfl⟩ | ⟨-, rfl⟩ := exec_cases h
  · cases ht
  · cases i with
    | addReg | sub | shr | subn | shl =>
      dsimp only [completed]
      rw [reg_flag_setRegFlag_advance]
      exact flagByte_eq_zero_or_one _
    | drw x y n =>
      have hflag := reg_setReg_advance_same { s with disp := (composite s x y n).disp } Reg.flag
        (collisionFlag (composite s x y n).collision)
      exact hflag ▸ flagByte_eq_zero_or_one _
    | addI x =>
      have hflag := reg_setReg_advance_same { s with i := indexSum s.i (s.reg x) } Reg.flag
        (indexOverflowFlag s.i (s.reg x))
      exact hflag ▸ flagByte_eq_zero_or_one _
    | ldImm | addImm | ldReg | orReg | andReg | xorReg | rnd | ldVDt =>
      obtain ⟨-, hregisters⟩ := hframe
      exact fun hx => hregisters 0xF (List.not_mem_cons_of_ne_of_not_mem hx.symm List.not_mem_nil)
    | ldVMem x =>
      obtain ⟨-, habove⟩ := hframe
      exact fun hx => habove 0xF (Fin.lt_last_iff_ne_last.mpr hx)
    | _ => exact hframe .registers (by decide) 0xF

/-! ### The moves of PC -/

theorem skipIf_pc_of_iff (s : State) {c : Bool} {p : Prop} [Decidable p] (h : c = true ↔ p) :
    (s.skipIf c).pc = if p then s.pc + 4 else s.pc + 2 := (State.skipIf_pc s c).trans (if_congr h rfl rfl)

/-- Settles O25: a raised fault leaves PC, and each instruction that completes is one move of it. -/
theorem everyInstructionMovesPcOneWay : Obligations.EveryInstructionMovesPcOneWay := by
  unfold Obligations.EveryInstructionMovesPcOneWay
  intro i s t hs h
  obtain ⟨c, -, rfl⟩ | ⟨hfault, rfl⟩ := exec_cases h
  · exact ⟨fun _ => rfl, fun ht => nomatch ht⟩
  · refine ⟨fun ht => absurd ((completed_halt hfault).trans hs) ht, fun _ => ?_⟩
    cases i with
    | seImm | seReg | skp | sknp => exact skipIf_pc_of_iff s beq_iff_eq
    | sneImm | sneReg => exact skipIf_pc_of_iff s bne_iff_ne
    | jp nnn => exact addressOperand_toNat nnn
    | call nnn =>
      dsimp only
      rw [completed_call (sp_lt_of_call hfault)]
      exact addressOperand_toNat nnn
    | jpV0 nnn => exact relativeTarget_toNat nnn _
    | ret =>
      have hsp := sp_ne_zero_of_ret hfault
      exact ⟨⟨s.sp.val - 1, by omega⟩, (Nat.succ_pred hsp).symm, rfl⟩
    | _ => rfl

end Sys2Proof.Machine
end

section
/-! What one call of `step()` answers (40_step.md, R100 to R109): each check before the dispatch, the result, and a
fault's record. -/

namespace Sys2Proof.Machine

/-! ### The checks of a step, one equation each -/

theorem step_halted {s : State} {r : FaultRecord} (hhalt : s.halt = some r) : step s = .fault r.kind := by
  simp only [step, cycle, hhalt]

theorem step_waiting {s : State} {x : Reg} (hhalt : s.halt = none) (hwait : s.wait = some x) : step s = .next s := by
  simp only [step, cycle, hhalt, hwait]

theorem step_fetch_none {s : State} (hhalt : s.halt = none) (hwait : s.wait = none) (hfetch : fetch s = none) :
    step s = .next (s.faulted (.memoryOutOfBounds (firstOutside s.pc))) := by
  simp only [step, cycle, hhalt, hwait, hfetch]
  rfl

theorem step_unknown {s : State} {w w' : Word} (hhalt : s.halt = none) (hwait : s.wait = none)
    (hfetch : fetch s = some w) (hdecode : decode w = .unknown w') :
    step s = .next (s.faulted (.unknownInstruction w')) := by
  simp only [step, cycle, hhalt, hwait, hfetch, hdecode]
  rfl

theorem step_instruction {s : State} {w : Word} {i : Instr} (hhalt : s.halt = none) (hwait : s.wait = none)
    (hfetch : fetch s = some w) (hdecode : decode w = .instruction i) : step s = exec i s := by
  simp only [step, cycle, hhalt, hwait, hfetch, hdecode]

theorem stepResult_of_step {s : State} {o : Host.Outcome State Fault Refusal} (h : step s = o) :
    stepResult s = resultOf s o := congrArg (resultOf s) h

theorem afterStep_of_fault {s : State} {k : Fault} (h : step s = .fault k) : afterStep s = s := by
  simp only [afterStep, h]

theorem afterStep_of_next {s t : State} (h : step s = .next t) : afterStep s = t := by
  simp only [afterStep, h]

/-- Settles O11: the check on `halt` comes first. -/
theorem haltedStepIsRejected : Obligations.HaltedStepIsRejected := by
  unfold Obligations.HaltedStepIsRejected
  intro s r hhalt
  have hstep := step_halted hhalt
  refine ⟨hstep, ?_⟩
  rw [perform, stepResult_of_step hstep, afterStep_of_fault hstep]
  rfl

/-- Settles O12: the check on `wait` comes before the fetch. -/
theorem waitingStepHolds : Obligations.WaitingStepHolds := by
  unfold Obligations.WaitingStepHolds
  intro s x hhalt hwait
  have hstep := step_waiting hhalt hwait
  refine ⟨hstep, ?_⟩
  rw [perform, stepResult_of_step hstep, afterStep_of_next hstep, resultOf_next_waiting hhalt hwait]

/-- Settles O13: there is no word to fetch above 0xFFE, and the first address outside is `max(PC, 0x1000)`. -/
theorem fetchPastMemoryFaults : Obligations.FetchPastMemoryFaults := by
  unfold Obligations.FetchPastMemoryFaults
  intro s hhalt hwait hpc
  have hstep := step_fetch_none hhalt hwait (fetch_outside (Nat.not_le.mpr hpc))
  refine ⟨?_, stepResult_of_step hstep⟩
  rw [hstep, firstOutside_eq]
  rfl

/-- Settles O9: the fetched word is the one of the two bytes, and the step is the branch of its decoding. -/
theorem stepRunsTheDecodedInstruction : Obligations.StepRunsTheDecodedInstruction := by
  unfold Obligations.StepRunsTheDecodedInstruction
  intro s w hhalt hwait hpc hbytes
  have hfetch : fetch s = some w := by
    rw [fetch_inside hpc]
    exact congrArg some (BitVec.eq_of_toNat_eq ((wordOfBytes_toNat _ _).trans hbytes.symm))
  refine ⟨fun i hdecode => step_instruction hhalt hwait hfetch hdecode, fun hdecode => ?_⟩
  have hstep := step_unknown hhalt hwait hfetch hdecode
  exact ⟨hstep, stepResult_of_step hstep⟩

/-! ### Every step -/

theorem StepCase.not_refused {s : State} {o : Host.Outcome State Fault Refusal} (hcase : StepCase s o) (r : Refusal) :
    o ≠ .refused r := by
  cases hcase with
  | executed w i =>
    rw [exec_eq]
    exact nofun
  | _ => exact nofun

theorem StepCase.halted_of_fault {s : State} {o : Host.Outcome State Fault Refusal} {k : Fault}
    (hcase : StepCase s o) (ho : o = .fault k) : ∃ r, s.halt = some r ∧ r.kind = k := by
  cases hcase with
  | halted r hhalt => exact ⟨r, hhalt, Host.Outcome.fault.inj ho⟩
  | executed w i => exact nomatch (exec_eq i s).symm.trans ho
  | _ => cases ho

/-- Settles O14: only a halted core answers a fault, an instruction always has a next state, and every case has a
result. -/
theorem stepIsTotal : Obligations.StepIsTotal := by
  unfold Obligations.StepIsTotal
  intro s
  have hcase := stepCase_step s
  exact ⟨hcase.not_refused, fun _ => hcase.halted_of_fault, hcase.exists_result⟩

/-- The instructions that return neither `DisplayChanged` nor `AwaitingKey` (R106). -/
theorem completionResult_continue {i : Instr} (hcls : i ≠ .cls) (hdrw : ∀ x y n, i ≠ .drw x y n)
    (hldVK : ∀ x, i ≠ .ldVK x) : completionResult i = .continue := by
  cases i with
  | cls => exact absurd rfl hcls
  | drw x y n => exact absurd rfl (hdrw x y n)
  | ldVK x => exact absurd rfl (hldVK x)
  | _ => rfl

/-- Settles O15: a step that leaves a record returns its kind, and one that leaves none returns the `completionResult`
of its instruction. -/
theorem stepReturnsTheResultOfItsInstruction : Obligations.StepReturnsTheResultOfItsInstruction := by
  unfold Obligations.StepReturnsTheResultOfItsInstruction
  intro s t w i _ hwait hfetch hdecode hstep
  rw [stepResult_of_step hstep]
  refine ⟨fun r ht => resultOf_next_halted ht, fun ht => ?_⟩
  rw [resultOf_next_executed ht hwait hfetch hdecode]
  refine ⟨?_, ?_, ?_, fun hcls hdrw hldVK => congrArg some (completionResult_continue hcls hdrw hldVK)⟩
  · rintro rfl
    rfl
  · rintro x y n rfl
    rfl
  · rintro x rfl
    rfl

/-! ### A step that faults -/

/-- What a step leaves that is not rejected: the state as it is while waiting, a raised fault, or what its instruction
leaves. -/
inductive StepNext (s : State) : State → Prop where
  | held (x : Reg) (hhalt : s.halt = none) (hwait : s.wait = some x) : StepNext s s
  | faulted (c : FaultCause) (hhalt : s.halt = none) (hwait : s.wait = none) : StepNext s (s.faulted c)
  | completed (w : Word) (i : Instr) (hhalt : s.halt = none) (hwait : s.wait = none) (hfetch : fetch s = some w)
      (hfault : faultOf i s = none) : StepNext s (completed i s)

theorem StepCase.stepNext {s t : State} {o : Host.Outcome State Fault Refusal} (hcase : StepCase s o)
    (ho : o = .next t) : StepNext s t := by
  cases hcase with
  | halted => cases ho
  | waiting x hhalt hwait =>
    cases ho
    exact .held x hhalt hwait
  | fetchFault hhalt hwait | unknown _ _ hhalt hwait =>
    cases ho
    exact .faulted _ hhalt hwait
  | executed w i hhalt hwait hfetch =>
    obtain ⟨c, -, rfl⟩ | ⟨hfault, rfl⟩ := exec_cases ho
    · exact .faulted c hhalt hwait
    · exact .completed w i hhalt hwait hfetch hfault

theorem stepNext_of_step {s t : State} (h : step s = .next t) : StepNext s t := (stepCase_step s).stepNext h

/-- Settles O16: of what a step can leave, only a raised fault is halted. -/
theorem faultChangesOnlyTheHaltRecord : Obligations.FaultChangesOnlyTheHaltRecord := by
  unfold Obligations.FaultChangesOnlyTheHaltRecord
  intro s t r hs hstep ht
  have hresult : stepResult s = some (.fault r.kind) := (stepResult_of_step hstep).trans (resultOf_next_halted ht)
  cases stepNext_of_step hstep with
  | held => exact nomatch hs.symm.trans ht
  | faulted c =>
    obtain rfl : s.record c = r := Option.some.inj ht
    exact ⟨rfl, rfl, hresult⟩
  | completed w i _ _ _ hfault => exact nomatch hs.symm.trans ((completed_halt hfault).symm.trans ht)

/-! ### An instruction placed where the step fetches -/

theorem fetch_le {s : State} {w : Word} (h : fetch s = some w) : s.pc.toNat ≤ Config.lastFetchAddress := by
  by_contra hout
  exact nomatch (fetch_outside hout).symm.trans h

/-- The state with a word placed where the step fetches, on a core that can fetch. -/
theorem withFetchWord_of_running {s : State} (hhalt : s.halt = none) (hwait : s.wait = none)
    (hpc : s.pc.toNat ≤ Config.lastFetchAddress) (w : Word) :
    s.withFetchWord 16 w.toNat = { s with mem := Memory.writeBlock s.mem s.pc.toNat (bytesOfWord w) } := by
  cases s
  cases hhalt
  cases hwait
  simp only [State.withFetchWord, placeBytes, tableBytes_toNat, if_pos hpc]

theorem withFetchWord_pc_le (s : State) (w : Word) : (s.withFetchWord 16 w.toNat).pc.toNat ≤ Config.lastFetchAddress := by
  rw [State.withFetchWord, placeBytes]
  dsimp only
  split
  next h => exact h
  next => decide

theorem withFetchWord_mem (s : State) (w : Word) :
    (s.withFetchWord 16 w.toNat).mem =
      Memory.writeBlock s.mem (s.withFetchWord 16 w.toNat).pc.toNat (bytesOfWord w) := by
  rw [State.withFetchWord, tableBytes_toNat]
  rfl

/-- The fetch reads the two bytes back, big-endian (R53). -/
theorem fetch_withFetchWord (s : State) (w : Word) : fetch (s.withFetchWord 16 w.toNat) = some w := by
  rw [fetch_inside (withFetchWord_pc_le s w), withFetchWord_mem, Memory.read_writeBlock, Memory.read_writeBlock]
  simp [bytesOfWord, wordOfBytes_bytes]

theorem step_withFetchWord (s : State) (i : Instr) :
    step (s.withFetchWord 16 (encode i).toNat) = exec i (s.withFetchWord 16 (encode i).toNat) :=
  step_instruction rfl rfl (fetch_withFetchWord s (encode i)) (decode_encode i)

/-- Settles O10: the two bytes placed at PC are fetched and decode to the instruction, and a block write changes no byte
outside its range. -/
theorem placedInstructionRunsNext : Obligations.PlacedInstructionRunsNext := by
  unfold Obligations.PlacedInstructionRunsNext
  intro s i
  refine ⟨step_withFetchWord s i, fun hhalt hwait hpc => ?_⟩
  rw [withFetchWord_of_running hhalt hwait hpc]
  refine ⟨rfl, sameBut_memory s _ s.pc, fun a hlow hhigh => ?_⟩
  have hlen : (bytesOfWord (encode i)).length = 2 := rfl
  exact Memory.read_writeBlock_outside (by omega) s.mem

end Sys2Proof.Machine
end

section
/-! The operations of the host (60_exceptions.md, R240 to R250; 70_reset_and_hazards.md): what each changes, and that a
halt or a wait outlasts them. -/

namespace Sys2Proof.Machine

/-! ### One operation -/

theorem sameBut_tickTimers (s : State) : sameBut [.delay, .sound] s (tickTimers s) :=
  sameBut_of_unchanged fun p hp => by
    cases p with
    | delay | sound => exact absurd (by decide) hp
    | _ => rfl

theorem sameBut_setKeys (s : State) (keys : Vector Bool 16) : sameBut [.keys] s { s with keys := keys } :=
  sameBut_of_unchanged fun p hp => by
    cases p with
    | keys => exact absurd List.mem_cons_self hp
    | _ => rfl

theorem sameBut_resolveWait (s : State) (keys : Vector Bool 16) (v : Vector Byte 16) (pc : Word) :
    sameBut [.registers, .keys, .wait] s { s with keys := keys, v := v, pc := pc, wait := none } :=
  sameBut_of_unchanged fun p hp => by
    cases p with
    | registers | keys | wait => exact absurd (by decide) hp
    | _ => rfl

theorem sameBut_loadProgram (bytes : List Byte) (s : State) : sameBut [.memory] s (loadProgram bytes s).2 := by
  by_cases h : bytes.length ≤ 3584
  · rw [loadProgram_fits h]
    exact sameBut_memory s _ s.pc
  · rw [loadProgram_tooLarge (Nat.lt_of_not_le h)]
    exact sameBut_refl _ s

theorem loadProgram_pc (bytes : List Byte) (s : State) : (loadProgram bytes s).2.pc = s.pc := by
  by_cases h : bytes.length ≤ 3584
  · rw [loadProgram_fits h]
  · rw [loadProgram_tooLarge (Nat.lt_of_not_le h)]

/-- A press while waiting puts the key into the waiting register and moves PC past the instruction (R244). -/
theorem setKey_resolves {index : Int} (h : 0 ≤ index ∧ index ≤ 15) {s : State} {r : Reg} (hwait : s.wait = some r) :
    setKey index true s = (.ok, { s with
      keys := s.keys.setIfInBounds index.toNat true
      v := s.v.set r (BitVec.ofNat 8 index.toNat)
      pc := s.pc + 2
      wait := none }) := by
  rw [setKey_valid h, if_pos rfl]
  exact congrArg _ (resolveWait_some (s := { s with keys := s.keys.setIfInBounds index.toNat true }) hwait _)

/-- A release, and a press while not waiting, sets the key and no more (R243). -/
theorem setKey_sets {index : Int} (h : 0 ≤ index ∧ index ≤ 15) {pressed : Bool} {s : State}
    (hidle : pressed = false ∨ s.wait = none) :
    setKey index pressed s = (.ok, { s with keys := s.keys.setIfInBounds index.toNat pressed }) := by
  rw [setKey_valid h]
  cases pressed with
  | false => rfl
  | true =>
    have hwait : s.wait = none := hidle.resolve_left (by decide)
    rw [if_pos rfl]
    exact congrArg _ (resolveWait_none (s := { s with keys := s.keys.setIfInBounds index.toNat true }) hwait _)

/-- What `setKey` leaves: the state as it is on a bad index, the key set, or the wait resolved. -/
inductive SetKeyCase (index : Int) (pressed : Bool) (s : State) : State → Prop where
  | rejected : SetKeyCase index pressed s s
  | set : SetKeyCase index pressed s { s with keys := s.keys.setIfInBounds index.toNat pressed }
  | resolved (r : Reg) (h : 0 ≤ index ∧ index ≤ 15) (hpressed : pressed = true) (hwait : s.wait = some r) :
      SetKeyCase index pressed s { s with
        keys := s.keys.setIfInBounds index.toNat true
        v := s.v.set r (BitVec.ofNat 8 index.toNat)
        pc := s.pc + 2
        wait := none }

theorem setKeyCase (index : Int) (pressed : Bool) (s : State) : SetKeyCase index pressed s (setKey index pressed s).2 := by
  by_cases h : 0 ≤ index ∧ index ≤ 15
  · by_cases hidle : pressed = false ∨ s.wait = none
    · rw [setKey_sets h hidle]
      exact .set
    · obtain ⟨hpressed, hwaiting⟩ := not_or.mp hidle
      obtain ⟨r, hwait⟩ := Option.ne_none_iff_exists'.mp hwaiting
      obtain rfl : pressed = true := Bool.eq_true_of_not_eq_false hpressed
      rw [setKey_resolves h hwait]
      exact .resolved r h rfl hwait
  · rw [setKey_invalid h]
    exact .rejected

theorem SetKeyCase.sameBut_keys_registers_wait {index : Int} {pressed : Bool} {s t : State}
    (h : SetKeyCase index pressed s t) : sameBut [.registers, .keys, .wait] s t := by
  cases h with
  | rejected => exact sameBut_refl _ s
  | set => exact (sameBut_setKeys s _).mono (by decide)
  | resolved => exact sameBut_resolveWait s _ _ _

/-- Settles O51: the timers decay each by one, and `tickTimers` writes nothing but them. -/
theorem tickDecrementsBothTimers : Obligations.TickDecrementsBothTimers := by
  unfold Obligations.TickDecrementsBothTimers
  intro s
  exact ⟨decay_toNat s.dt, decay_toNat s.st, rfl, sameBut_tickTimers s⟩

/-! ### A core held by its fault record or by a wait -/

/-- PC and every part but those that the host writes while the core is held are as in `s` (R234, R245). -/
def Held (s t : State) : Prop := t.pc = s.pc ∧ sameBut [.delay, .sound, .memory, .keys] s t

theorem Held.trans {s t u : State} (h : Held s t) (h' : Held t u) : Held s u := by
  obtain ⟨hpc, hsame⟩ := h
  obtain ⟨hpc', hsame'⟩ := h'
  exact ⟨hpc'.trans hpc, hsame.trans hsame'⟩

theorem Held.halt {s t : State} (h : Held s t) : t.halt = s.halt := h.2 .halt (by decide)

theorem Held.wait {s t : State} (h : Held s t) : t.wait = s.wait := h.2 .wait (by decide)

/-- The operation is a press of a key that there is. -/
def Operation.IsPress (op : Operation) : Prop := ∃ k, 0 ≤ k ∧ k ≤ 15 ∧ op = .setKey k true

theorem SetKeyCase.held {index : Int} {pressed : Bool} {s t : State} (h : SetKeyCase index pressed s t)
    (hpress : s.wait = none ∨ ¬(Operation.setKey index pressed).IsPress) : Held s t := by
  cases h with
  | rejected => exact ⟨rfl, sameBut_refl _ s⟩
  | set => exact ⟨rfl, (sameBut_setKeys s _).mono (by decide)⟩
  | resolved r h hpressed hwait =>
    have hwaiting : s.wait ≠ none := hwait ▸ Option.some_ne_none r
    exact absurd ⟨index, h.1, h.2, by rw [hpressed]⟩ (hpress.resolve_left hwaiting)

/-- On a core whose steps change nothing, an operation that is no reset, and no press if the core waits, keeps it held. -/
theorem held_perform {op : Operation} {s : State} (hstep : afterStep s = s) (hreset : op ≠ .reset)
    (hpress : s.wait = none ∨ ¬op.IsPress) : Held s (perform op s).2 := by
  cases op with
  | step =>
    rw [perform, hstep]
    exact ⟨rfl, sameBut_refl _ s⟩
  | tickTimers => exact ⟨rfl, (sameBut_tickTimers s).mono (by decide)⟩
  | setKey index pressed => exact (setKeyCase index pressed s).held hpress
  | loadProgram bytes => exact ⟨loadProgram_pc bytes s, (sameBut_loadProgram bytes s).mono (by decide)⟩
  | reset => exact absurd rfl hreset

/-- The same for a schedule, when the record or the wait of `s` is what makes its steps change nothing. -/
theorem held_runSchedule {ops : List Operation} {s : State} (hstep : ∀ t, Held s t → afterStep t = t)
    (hreset : .reset ∉ ops) (hpress : s.wait = none ∨ ∀ op ∈ ops, ¬op.IsPress) : Held s (runSchedule ops s) := by
  refine runSchedule_keeps (fun op hop t ht => ht.trans (held_perform (hstep t ht) ?_ ?_)) ⟨rfl, sameBut_refl _ s⟩
  · rintro rfl
    exact hreset hop
  · exact hpress.imp (fun hwait => ht.wait.trans hwait) fun hno => hno op hop

/-- Settles O19: while the record stands every step is rejected, so no operation short of a reset changes more than the
timers, memory and the keys. -/
theorem haltLastsUntilReset : Obligations.HaltLastsUntilReset := by
  unfold Obligations.HaltLastsUntilReset
  intro ops s r hhalt hwait hreset
  have hstep (t : State) (ht : Held s t) : step t = .fault r.kind := step_halted (ht.halt.trans hhalt)
  have hheld : Held s (runSchedule ops s) :=
    held_runSchedule (fun t ht => afterStep_of_fault (hstep t ht)) hreset (.inl hwait)
  exact ⟨hheld.halt.trans hhalt, hheld.1, hheld.2, hstep _ hheld⟩

/-- Settles O53: while the core waits every step is a hold, so without a reset and without a press of a key that there
is, no operation changes more than the timers, memory and the keys. -/
theorem waitLastsUntilAPress : Obligations.WaitLastsUntilAPress := by
  unfold Obligations.WaitLastsUntilAPress
  intro ops s x hhalt hwait hreset hpress
  have hstep (t : State) (ht : Held s t) : step t = .next t :=
    step_waiting (ht.halt.trans hhalt) (ht.wait.trans hwait)
  have hheld : Held s (runSchedule ops s) := by
    refine held_runSchedule (fun t ht => afterStep_of_next (hstep t ht)) hreset (.inr ?_)
    rintro op hop ⟨k, hlow, hhigh, rfl⟩
    exact hpress k hlow hhigh hop
  refine ⟨hheld.wait.trans hwait, hheld.1, hheld.2, ?_⟩
  rw [stepResult_of_step (hstep _ hheld)]
  exact resultOf_next_waiting (hheld.halt.trans hhalt) (hheld.wait.trans hwait)

/-! ### Keys, reset, program load and snapshots -/

theorem getElem_setIfInBounds_same (keys : Vector Bool 16) (k : Fin 16) (pressed : Bool) :
    (keys.setIfInBounds k.val pressed)[k] = pressed := Vector.getElem_setIfInBounds_self k.isLt

theorem getElem_setIfInBounds_ne (keys : Vector Bool 16) {j k : Fin 16} (h : j ≠ k) (pressed : Bool) :
    (keys.setIfInBounds k.val pressed)[j] = keys[j] :=
  Vector.getElem_setIfInBounds_ne j.isLt (fun hval => h (Fin.ext hval.symm))

/-- Settles O52: a press while waiting is the resolution of the wait, and every other call with a valid index is the
write of its key. -/
theorem setKeyUpdatesTheKeyAndResolvesAWait : Obligations.SetKeyUpdatesTheKeyAndResolvesAWait := by
  unfold Obligations.SetKeyUpdatesTheKeyAndResolvesAWait
  intro s
  refine ⟨fun k pressed => ?_, fun index pressed h => setKey_invalid (by omega) pressed s⟩
  have hvalid : 0 ≤ (k.val : Int) ∧ (k.val : Int) ≤ 15 := by omega
  by_cases hidle : pressed = false ∨ s.wait = none
  · refine ⟨_, setKey_sets hvalid hidle, getElem_setIfInBounds_same s.keys k pressed,
      fun j hj => getElem_setIfInBounds_ne s.keys hj pressed, fun r hpressed hwait => ?_,
      fun _ => ⟨rfl, sameBut_setKeys s _⟩⟩
    simp [hpressed, hwait] at hidle
  · obtain ⟨hpressed, hwaiting⟩ := not_or.mp hidle
    obtain ⟨r, hwait⟩ := Option.ne_none_iff_exists'.mp hwaiting
    obtain rfl : pressed = true := Bool.eq_true_of_not_eq_false hpressed
    refine ⟨_, setKey_resolves hvalid hwait, getElem_setIfInBounds_same s.keys k true,
      fun j hj => getElem_setIfInBounds_ne s.keys hj true, fun r' _ hwait' => ?_, fun h => absurd h hidle⟩
    obtain rfl : r = r' := Option.some.inj (hwait.symm.trans hwait')
    refine ⟨rfl, ?_, rfl, registersBut_setReg_advance s r _, sameBut_resolveWait s _ _ _⟩
    have hreg := reg_setReg_advance_same s r (BitVec.ofNat 8 k.val)
    exact (congrArg BitVec.toNat hreg).trans (Nat.mod_eq_of_lt (by omega))

/-- Settles O55: `reset()` writes the initial state but for the draws, and no byte above the font is listed in it. -/
theorem resetClearsEverythingElse : Obligations.ResetClearsEverythingElse := by
  unfold Obligations.ResetClearsEverythingElse
  rintro s t rfl
  refine ⟨rfl, rfl, rfl, fun k => Vector.getElem_replicate _, Display.pixel_cleared, fun k => Vector.getElem_replicate _,
    fun a ha => ?_, rfl, rfl, rfl⟩
  have hglyph : ¬a < Config.glyphSize := by
    rw [Config.glyphSize]
    omega
  exact (if_neg hglyph).trans (if_neg (Nat.not_lt.mpr ha))

/-- Settles O56: a block write reads back its own bytes and no other byte changes. -/
theorem loadProgramCopiesTheImage : Obligations.LoadProgramCopiesTheImage := by
  unfold Obligations.LoadProgramCopiesTheImage
  intro s bytes
  refine ⟨fun hfits => ?_, fun hlong => loadProgram_tooLarge hlong s⟩
  refine ⟨_, loadProgram_fits hfits s, fun k hk => ?_, fun a ha => ?_, rfl, sameBut_memory s _ s.pc⟩
  · exact (Memory.read_writeBlock_inside hk s.mem _).trans (List.getD_eq_getElem bytes 0 hk)
  · exact Memory.read_writeBlock_outside ha s.mem

theorem getElem?_displaySnapshot (s : State) {x y : Nat} (hx : x < 64) (hy : y < 32) :
    (displaySnapshot s)[x + 64 * y]? = some (Display.pixel s.disp x y) := by
  have hj : x + 64 * y < 2048 := by omega
  have hcol : (x + 64 * y) % 64 = x := by omega
  have hrow : (x + 64 * y) / 64 = y := by omega
  simp [displaySnapshot, hj, hcol, hrow]

/-- Settles O57: place `x + 64 * y` of the display snapshot has column `x` and row `y` as its remainder and quotient by
64, and the other snapshots are copies of the fields. -/
theorem snapshotsShowTheState : Obligations.SnapshotsShowTheState := by
  unfold Obligations.SnapshotsShowTheState
  intro s
  have hlength : (displaySnapshot s).length = 2048 := by simp [displaySnapshot]
  exact ⟨hlength, fun _ _ => getElem?_displaySnapshot s, fun _ => rfl, rfl, rfl, rfl, rfl, rfl,
    diagnosticSnapshot_display s, rfl, fun _ => Iff.rfl, soundActive_iff s⟩

end Sys2Proof.Machine
end

section
/-! The invariant of every reachable state (`State.Inv`; 10_state.md, R24 and R25; 60_exceptions.md, R231 and R244), and
the stack slots between a call and its return (41_control_flow.md). -/

namespace Sys2Proof.Machine

/-! ### The stack after an instruction -/

/-- A slot in use keeps its address: a call writes the first free one, and a return keeps the one it pops. -/
theorem completed_slot_of_lt {i : Instr} {s : State} (hfault : faultOf i s = none) {k : Fin 16} (hk : k.val < s.sp.val) :
    (completed i s).stack[k] = s.stack[k] := by
  cases i with
  | call nnn =>
    have hroom := sp_lt_of_call hfault
    rw [completed_call hroom]
    exact Vector.getElem_set_ne hroom k.isLt (Nat.ne_of_gt hk)
  | seImm | sneImm | seReg | sneReg | skp | sknp =>
    exact congrArg (fun stack : Vector Word 16 => stack[k]) (State.skipIf_stack s _)
  | _ => rfl

/-- A slot that comes into use holds the address of the instruction, a call. -/
theorem completed_slot_of_ge {i : Instr} {s : State} (hfault : faultOf i s = none) {k : Fin 16}
    (hk : k.val < (completed i s).sp.val) (hge : s.sp.val ≤ k.val) : (completed i s).stack[k] = s.pc := by
  cases i with
  | ret =>
    have hlt : k.val < s.sp.val - 1 := hk
    omega
  | call nnn =>
    have hroom := sp_lt_of_call hfault
    rw [completed_call hroom] at hk ⊢
    have hlt : k.val < s.sp.val + 1 := hk
    have hkeq : s.sp.val = k.val := by omega
    exact (Vector.getElem_set hroom k.isLt).trans (if_pos hkeq)
  | seImm | sneImm | seReg | sneReg | skp | sknp =>
    rw [completed, State.skipIf_sp] at hk
    omega
  | _ => exact absurd hk (Nat.not_lt.mpr hge)

/-! ### The invariant through a step -/

theorem range_of_rangeFault {a : Word} {len : Nat} (h : rangeFault a len = none) :
    len = 0 ∨ a.toNat + len ≤ Config.memorySize := by
  by_contra hout
  exact nomatch (rangeFault_outside hout).symm.trans h

theorem completed_memory_wf {i : Instr} {s : State} (hfault : faultOf i s = none) (h : Memory.wf s.mem) :
    Memory.wf (completed i s).mem := by
  cases i with
  | ldB x =>
    have hrange := (range_of_rangeFault hfault).resolve_left (by decide)
    exact Memory.wf_writeBlock _ h _ (.inl hrange)
  | ldMemV x =>
    have hrange := (range_of_rangeFault hfault).resolve_left (Nat.succ_ne_zero _)
    exact Memory.wf_writeBlock _ h _ (.inl (by rwa [length_regsThrough]))
  | call nnn =>
    rw [completed_call (sp_lt_of_call hfault)]
    exact h
  | seImm | sneImm | seReg | sneReg | skp | sknp =>
    rw [completed, State.skipIf_mem]
    exact h
  | _ => exact h

theorem toNat_add_le {pc : Word} (h : pc.toNat ≤ Config.lastFetchAddress) {k : Word} (hk : k.toNat ≤ 4) :
    (pc + k).toNat ≤ 0x10FE := by
  rw [Config.lastFetchAddress] at h
  rw [BitVec.toNat_add]
  omega

theorem skipIf_pc_le {s : State} (h : s.pc.toNat ≤ Config.lastFetchAddress) (c : Bool) :
    (s.skipIf c).pc.toNat ≤ 0x10FE := by
  rw [State.skipIf_pc]
  split <;> exact toNat_add_le h (by decide)

/-- PC after an instruction fetched from memory: at most 4 past it, an address operand and V0, or 2 past a call. -/
theorem completed_pc_le {i : Instr} {s : State} (hfault : faultOf i s = none) (hinv : s.Inv)
    (hpc : s.pc.toNat ≤ Config.lastFetchAddress) : (completed i s).pc.toNat ≤ 0x10FE := by
  cases i with
  | ret =>
    have hsp := sp_ne_zero_of_ret hfault
    exact toNat_add_le (hinv.stackBound ⟨s.sp.val - 1, by omega⟩ (by dsimp only; omega)) (by decide)
  | jp nnn | call nnn =>
    have hnnn := nnn.isLt
    rw [completed, State.jump_pc, addressOperand_toNat]
    omega
  | jpV0 nnn =>
    have hnnn := nnn.isLt
    have hv0 := (s.reg Reg.zero).isLt
    rw [completed, State.jump_pc, relativeTarget_toNat]
    omega
  | seImm | sneImm | seReg | sneReg | skp | sknp => exact skipIf_pc_le hpc _
  | ldVK => exact hinv.pcBound
  | _ => exact toNat_add_le hpc (by decide)

theorem completed_wait {i : Instr} {s : State} (hfault : faultOf i s = none) (hwait : s.wait = none)
    (h : (completed i s).wait ≠ none) : (completed i s).pc = s.pc := by
  cases i with
  | ldVK => rfl
  | call nnn =>
    rw [completed_call (sp_lt_of_call hfault)] at h
    exact absurd hwait h
  | seImm | sneImm | seReg | sneReg | skp | sknp =>
    rw [completed, State.skipIf_wait] at h
    exact absurd hwait h
  | _ => exact absurd hwait h

theorem State.Inv.faulted {s : State} (h : s.Inv) (hwait : s.wait = none) (c : FaultCause) : (s.faulted c).Inv where
  memory := h.memory
  pcBound := h.pcBound
  stackBound := h.stackBound
  notBoth := .inl hwait
  waitBound := h.waitBound
  haltPc := by
    rintro r hr
    cases hr
    rfl

theorem State.Inv.completed {i : Instr} {s : State} (h : s.Inv) (hhalt : s.halt = none) (hwait : s.wait = none)
    (hpc : s.pc.toNat ≤ Config.lastFetchAddress) (hfault : faultOf i s = none) : (completed i s).Inv where
  memory := completed_memory_wf hfault h.memory
  pcBound := completed_pc_le hfault h hpc
  stackBound k hk := by
    by_cases hlt : k.val < s.sp.val
    · rw [completed_slot_of_lt hfault hlt]
      exact h.stackBound k hlt
    · rw [completed_slot_of_ge hfault hk (Nat.le_of_not_lt hlt)]
      exact hpc
  notBoth := .inr ((completed_halt hfault).trans hhalt)
  waitBound hwaiting := by
    rw [completed_wait hfault hwait hwaiting]
    exact hpc
  haltPc r hr := nomatch hhalt.symm.trans ((completed_halt hfault).symm.trans hr)

theorem StepNext.inv {s t : State} (h : StepNext s t) (hinv : s.Inv) : t.Inv := by
  cases h with
  | held => exact hinv
  | faulted c _ hwait => exact hinv.faulted hwait c
  | completed w i hhalt hwait hfetch hfault => exact hinv.completed hhalt hwait (fetch_le hfetch) hfault

/-- Settles O59: a held core stays as it is, a raised fault writes the record of its own PC, and an instruction that
completes was fetched from memory. -/
theorem stepKeepsTheInvariant : Obligations.StepKeepsTheInvariant := by
  unfold Obligations.StepKeepsTheInvariant
  intro s t hinv hstep
  exact (stepNext_of_step hstep).inv hinv

/-! ### The invariant through a schedule -/

/-- Settles O58: memory lists nothing, the stack is empty, and the core neither waits nor is halted. -/
theorem resetMeetsTheInvariant : Obligations.ResetMeetsTheInvariant where
  memory := Memory.wf_nil
  pcBound := by decide
  stackBound k hk := absurd hk (Nat.not_lt_zero k.val)
  notBoth := .inl rfl
  waitBound h := absurd rfl h
  haltPc r hr := nomatch hr

theorem State.Inv.afterStep {s : State} (h : s.Inv) : (afterStep s).Inv := by
  cases hstep : step s with
  | next t =>
    rw [afterStep_of_next hstep]
    exact (stepNext_of_step hstep).inv h
  | fault k =>
    rw [afterStep_of_fault hstep]
    exact h
  | refused r => exact absurd hstep ((stepCase_step s).not_refused r)

theorem SetKeyCase.inv {index : Int} {pressed : Bool} {s t : State} (hcase : SetKeyCase index pressed s t)
    (h : s.Inv) : t.Inv := by
  cases hcase with
  | rejected => exact h
  | set => exact { h with }
  | resolved r _ _ hwait =>
    have hwaiting : s.wait ≠ none := hwait ▸ Option.some_ne_none r
    have hhalt : s.halt = none := h.notBoth.resolve_left hwaiting
    exact { h with
      pcBound := toNat_add_le (h.waitBound hwaiting) (by decide)
      notBoth := .inl rfl
      waitBound := fun hne => absurd rfl hne
      haltPc := fun r' hr' => nomatch hhalt.symm.trans hr' }

theorem State.Inv.loadProgram {s : State} (h : s.Inv) (bytes : List Byte) : (loadProgram bytes s).2.Inv := by
  by_cases hfits : bytes.length ≤ 3584
  · rw [loadProgram_fits hfits]
    have hrange : Config.programBase + bytes.length ≤ Config.memorySize := by
      rw [Config.programBase, Config.memorySize]
      omega
    exact { h with memory := Memory.wf_writeBlock bytes h.memory _ (.inl hrange) }
  · rw [loadProgram_tooLarge (Nat.lt_of_not_le hfits)]
    exact h

theorem State.Inv.perform {s : State} (h : s.Inv) (op : Operation) : (perform op s).2.Inv := by
  cases op with
  | step => exact h.afterStep
  | tickTimers => exact { h with }
  | setKey index pressed => exact (setKeyCase index pressed s).inv h
  | loadProgram bytes => exact h.loadProgram bytes
  | reset => exact { resetMeetsTheInvariant with }

/-- Settles O60: every operation keeps the invariant, the resolution of a wait because a waiting core stands at a
fetchable address. -/
theorem everyScheduleKeepsTheInvariant : Obligations.EveryScheduleKeepsTheInvariant := by
  unfold Obligations.EveryScheduleKeepsTheInvariant
  intro ops s hinv
  exact runSchedule_keeps (fun op _ t ht => ht.perform op) hinv

/-! ### The frame between a call and its return -/

theorem StepNext.slot {s t : State} (h : StepNext s t) {k : Fin 16} (hk : k.val < s.sp.val) : t.stack[k] = s.stack[k] := by
  cases h with
  | held => rfl
  | faulted => rfl
  | completed _ _ _ _ _ hfault => exact completed_slot_of_lt hfault hk

theorem afterStep_slot {s : State} {k : Fin 16} (hk : k.val < s.sp.val) : (afterStep s).stack[k] = s.stack[k] := by
  cases hstep : step s with
  | next t =>
    rw [afterStep_of_next hstep]
    exact (stepNext_of_step hstep).slot hk
  | fault => rw [afterStep_of_fault hstep]
  | refused r => exact absurd hstep ((stepCase_step s).not_refused r)

/-- An operation after which a slot is still in use has kept its address: only a reset clears slots, and it frees all. -/
theorem perform_slot {op : Operation} {s : State} {k : Fin 16} (hk : k.val < s.sp.val)
    (hk' : k.val < (perform op s).2.sp.val) : (perform op s).2.stack[k] = s.stack[k] := by
  cases op with
  | step => exact afterStep_slot hk
  | tickTimers => rfl
  | setKey index pressed =>
    exact ((setKeyCase index pressed s).sameBut_keys_registers_wait .stack (by decide)).2 k
  | loadProgram bytes => exact (sameBut_loadProgram bytes s .stack (by decide)).2 k
  | reset => exact absurd hk' (Nat.not_lt_zero k.val)

/-- The slot keeps its address over a schedule during which SP stays above it. -/
theorem runSchedule_slot {ops : List Operation} {s : State} {k : Fin 16}
    (h : ∀ m, m ≤ ops.length → k.val < (runSchedule (ops.take m) s).sp.val) :
    (runSchedule ops s).stack[k] = s.stack[k] := by
  induction ops generalizing s with
  | nil => rfl
  | cons op rest ih =>
    have hrest := ih fun m hm => h (m + 1) (Nat.succ_le_succ hm)
    exact hrest.trans (perform_slot (h 0 (Nat.zero_le _)) (h 1 (Nat.succ_le_succ (Nat.zero_le _))))

/-- Settles O26: the call leaves its address in the slot, the schedule keeps it, and the return pops it. -/
theorem callAndReturnPairUp : Obligations.CallAndReturnPairUp := by
  unfold Obligations.CallAndReturnPairUp
  intro s t u nnn ops k hsp hcall habove hdepth hret
  have hroom : s.sp.val < 16 := by omega
  obtain rfl : _ = t := Host.Outcome.next.inj ((execCall_pushes hroom nnn).symm.trans hcall)
  have hkept := runSchedule_slot habove
  generalize runSchedule ops _ = r at *
  obtain rfl : _ = u := Host.Outcome.next.inj ((execRet_pops (by omega)).symm.trans hret)
  have hslot : r.stack[k] = s.pc := hkept.trans ((Vector.getElem_set hroom k.isLt).trans (if_pos hsp))
  have hpop : r.stack[r.sp.val - 1]'(by omega) = r.stack[k] := by simp [hdepth]
  refine ⟨?_, Fin.ext ?_, hslot⟩
  · rw [State.jump_pc, hpop, hslot]
  · rw [State.jump_sp, hsp]
    exact Nat.sub_eq_of_eq_add hdepth

end Sys2Proof.Machine
end

section
/-! The instructions one by one: return and call, the register skips, the key skips and await-key
(41_control_flow.md, 45_keys_timers.md). -/

namespace Sys2Proof.Machine

/-! ### Return and call -/

/-- Settles O18: the stack check comes before the pop and the push. -/
theorem stackViolationsAreFatal : Obligations.StackViolationsAreFatal := by
  unfold Obligations.StackViolationsAreFatal
  intro s
  refine ⟨fun nnn hfull => ?_, fun hempty => ?_⟩
  · exact ⟨s.faulted .stackOverflow, execCall_overflow hfull nnn, rfl, rfl, sameBut_faulted (by decide) s _⟩
  · exact ⟨s.faulted .stackUnderflow, execRet_underflow hempty, rfl, rfl, sameBut_faulted (by decide) s _⟩

/-- Settles O20: the popped slot is the one below SP, and the pop leaves the slots alone. -/
theorem returnGoesTwoPastThePoppedAddress : Obligations.ReturnGoesTwoPastThePoppedAddress := by
  unfold Obligations.ReturnGoesTwoPastThePoppedAddress
  intro s
  refine ⟨fun k hsp => ?_, fun hempty => execRet_underflow hempty⟩
  have hk : s.sp.val - 1 = k.val := by omega
  have hpop : s.stack[s.sp.val - 1]'(by omega) = s.stack[k] := by simp [hk]
  exact ⟨_, execRet_pops (by omega), congrArg (· + 2) hpop, hk, fun _ => rfl, sameBut_stack s _ _ _, rfl⟩

/-- Settles O22: the push writes the slot at SP and no other. -/
theorem callPushesItsOwnAddress : Obligations.CallPushesItsOwnAddress := by
  unfold Obligations.CallPushesItsOwnAddress
  intro s nnn
  refine ⟨fun k hsp => ?_, fun hfull => execCall_overflow hfull nnn⟩
  have hroom : s.sp.val < 16 := by omega
  refine ⟨_, execCall_pushes hroom nnn, addressOperand_toNat nnn, congrArg (· + 1) hsp, ?_, fun j hj => ?_,
    sameBut_stack s _ _ _, rfl⟩
  · exact (Vector.getElem_set hroom k.isLt).trans (if_pos hsp)
  · exact Vector.getElem_set_ne hroom j.isLt fun hval => hj (Fin.ext (hval.symm.trans hsp))

/-! ### Skips -/

/-- An instruction that skips when `c` holds moves PC by 4 or 2 and changes nothing else. -/
theorem exec_skips {i : Instr} {s : State} {c : Bool} {p q : Prop} (hexec : exec i s = .next (s.skipIf c))
    (hp : p → c = true) (hq : q → c = false) :
    ∃ t, exec i s = .next t ∧ (p → t.pc = s.pc + 4) ∧ (q → t.pc = s.pc + 2) ∧ sameBut [] s t :=
  ⟨_, hexec, fun h => State.skipIf_pc_of_true (hp h) s, fun h => State.skipIf_pc_of_false (hq h) s,
    sameBut_skipIf [] s c⟩

/-- The rows of the register skips fix the low nibble to 0 (D4). -/
theorem decode_register_skip_nonzero_nibble {w : Word} (hop : opField w = 0x5 ∨ opField w = 0x9) (hn : nField w ≠ 0) :
    decode w = .unknown w := by
  unfold decode
  rcases hop with hop | hop
  all_goals
    rw [hop]
    exact if_neg hn

/-- Settles O24: each instruction is one conditional skip, SE's on equal registers and SNE's on different ones. -/
theorem registerSkipsMovePcByFourOrTwo : Obligations.RegisterSkipsMovePcByFourOrTwo := by
  unfold Obligations.RegisterSkipsMovePcByFourOrTwo
  refine ⟨fun s x y => ⟨?_, ?_⟩, fun w => decode_register_skip_nonzero_nibble⟩
  · exact exec_skips rfl beq_iff_eq.mpr beq_eq_false_iff_ne.mpr
  · exact exec_skips rfl bne_iff_ne.mpr bne_eq_false_iff_eq.mpr

/-- Settles O47: a value up to 15 names a key, on whose state the instruction skips, and a value above 15 is refused. -/
theorem keySkipsReadTheNamedKey : Obligations.KeySkipsReadTheNamedKey := by
  unfold Obligations.KeySkipsReadTheNamedKey
  intro s x
  refine ⟨fun k hk => ?_, fun hout => ⟨execSkp_outOfRange hout, execSknp_outOfRange hout⟩⟩
  have hlt : (s.reg x).toNat < 16 := by omega
  have hkey : s.keys[(s.reg x).toNat] = s.keys[k] := by simp [hk]
  refine ⟨exec_skips (execSkp_key hlt) (fun h => hkey.trans h) (fun h => hkey.trans h),
    exec_skips (execSknp_key hlt) (fun h => ?_) (fun h => ?_)⟩
  all_goals
    rw [hkey, h]
    rfl

/-! ### Await-key -/

/-- Settles O49: the instruction is one write of `wait`. -/
theorem awaitKeySuspendsWithoutAdvancing : Obligations.AwaitKeySuspendsWithoutAdvancing := by
  unfold Obligations.AwaitKeySuspendsWithoutAdvancing
  intro s x
  exact ⟨_, rfl, rfl, rfl, sameBut_wait s (some x), rfl⟩

end Sys2Proof.Machine
end

section
/-! The operations on registers and on I (42_alu.md, 43_index_memory.md): results, flags and frames. -/

namespace Sys2Proof.Machine

/-! ### Logic and random-and -/

/-- Settles O29: each instruction is one register write, of a bitwise operation. -/
theorem logicActsBitByBit : Obligations.LogicActsBitByBit := by
  unfold Obligations.LogicActsBitByBit
  intro s x y
  refine ⟨?or, ?and, ?xor⟩
  case or =>
    obtain ⟨t, hnext, hread, hpc, hothers, hframe, -⟩ := exec_writes_one_register (i := .orReg x y) (s := s) rfl rfl
    exact ⟨t, hnext, fun k => hread ▸ BitVec.getLsbD_or, hpc, hothers, hframe⟩
  case and =>
    obtain ⟨t, hnext, hread, hpc, hothers, hframe, -⟩ := exec_writes_one_register (i := .andReg x y) (s := s) rfl rfl
    exact ⟨t, hnext, fun k => hread ▸ BitVec.getLsbD_and, hpc, hothers, hframe⟩
  case xor =>
    obtain ⟨t, hnext, hread, hpc, hothers, hframe, -⟩ := exec_writes_one_register (i := .xorReg x y) (s := s) rfl rfl
    exact ⟨t, hnext, fun k => hread ▸ BitVec.getLsbD_xor, hpc, hothers, hframe⟩

/-- Settles O33: the draw takes the next byte, and the mask clears the bits that are clear in `kk`. -/
theorem randomAndMasksOneFreeDraw : Obligations.RandomAndMasksOneFreeDraw := by
  unfold Obligations.RandomAndMasksOneFreeDraw
  intro s x kk
  have hreg := reg_setReg_advance_same s.draw.2 x (Config.randomByte s.draws &&& kk)
  refine ⟨_, rfl, hreg, rfl, fun k hk => ?_, rfl, registersBut_setReg_advance s.draw.2 x _,
    sameBut_registers_draws s _ _ _⟩
  calc _ = (Config.randomByte s.draws &&& kk).getLsbD k := congrArg (BitVec.getLsbD · k) hreg
    _ = false := by rw [BitVec.getLsbD_and, hk, Bool.and_false]

/-! ### A result and a flag -/

theorem reg_setRegFlag_advance (s : State) {x : Reg} (hx : x ≠ 0xF) (b flag : Byte) :
    (s.setRegFlag x b flag).advance.reg x = b :=
  (State.reg_setRegFlag s x x b flag).trans ((if_neg hx).trans (if_pos rfl))

/-- An instruction whose next state is a result in Vx, then a flag in VF, and the move of PC past it. -/
theorem exec_writes_register_and_flag {i : Instr} {s : State} {x : Reg} {b flag : Byte}
    (hexec : exec i s = .next (s.setRegFlag x b flag).advance) :
    ∃ t, exec i s = .next t ∧ (x ≠ 0xF → t.reg x = b) ∧ t.reg 0xF = flag ∧ t.pc = s.pc + 2 ∧
      registersBut [x, 0xF] s t ∧ sameBut [.registers] s t :=
  ⟨_, hexec, fun hx => reg_setRegFlag_advance s hx b flag, reg_flag_setRegFlag_advance s x b flag, rfl,
    registersBut_setRegFlag_advance s x b flag, sameBut_registers s _ _⟩

theorem flagByte_decide (p : Prop) [Decidable p] : flagByte (decide p) = if p then 1 else 0 := by
  by_cases h : p
  · simp [flagByte, h]
  · simp [flagByte, h]

theorem flagByte_toNat (c : Bool) : (flagByte c).toNat = c.toNat := by cases c <;> rfl

theorem lowBitFlag_toNat (a : Byte) : (lowBitFlag a).toNat = a.toNat % 2 := by
  rw [lowBitFlag, flagByte_toNat, BitVec.getLsbD, Nat.toNat_testBit, Nat.pow_zero, Nat.div_one]

theorem highBitFlag_toNat (a : Byte) : (highBitFlag a).toNat = a.toNat / 128 := by
  have ha := a.isLt
  rw [highBitFlag, flagByte_toNat, BitVec.getLsbD, Nat.toNat_testBit]
  omega

/-- Settles O30: the result is `sumByte` and the flag `carryFlag`. -/
theorem addRegisterSumAndCarry : Obligations.AddRegisterSumAndCarry := by
  unfold Obligations.AddRegisterSumAndCarry
  intro s x y
  obtain ⟨t, hnext, hsum, hcarry, hframe⟩ := exec_writes_register_and_flag (i := .addReg x y) (s := s) rfl
  refine ⟨t, hnext, fun hx => ?_, hcarry.trans (flagByte_decide _), hframe⟩
  rw [hsum hx, sumByte_toNat]

/-- A difference added to the subtrahend gives the minuend mod 256. -/
theorem diffByte_add (a b : Byte) : ((diffByte a b).toNat + b.toNat) % 256 = a.toNat := by
  have ha := a.isLt
  have hb := b.isLt
  rw [diffByte_toNat]
  omega

/-- Settles O31: the results are the two differences, and the flags are `noBorrowFlag` of the same operands. -/
theorem subtractionsWrapAndFlagNoBorrow : Obligations.SubtractionsWrapAndFlagNoBorrow := by
  unfold Obligations.SubtractionsWrapAndFlagNoBorrow
  intro s x y
  refine ⟨?sub, ?subn⟩
  case sub =>
    obtain ⟨t, hnext, hdiff, hflag, hframe⟩ := exec_writes_register_and_flag (i := .sub x y) (s := s) rfl
    refine ⟨t, hnext, fun hx => ?_, hflag.trans (flagByte_decide _), hframe⟩
    rw [hdiff hx, diffByte_add]
  case subn =>
    obtain ⟨t, hnext, hdiff, hflag, hframe⟩ := exec_writes_register_and_flag (i := .subn x y) (s := s) rfl
    refine ⟨t, hnext, fun hx => ?_, hflag.trans (flagByte_decide _), hframe⟩
    rw [hdiff hx, diffByte_add]

/-- Settles O32: the results are `shiftRight` and `shiftLeft`, the flags `lowBitFlag` and `highBitFlag`. -/
theorem shiftsMoveOneBitIntoTheFlag : Obligations.ShiftsMoveOneBitIntoTheFlag := by
  unfold Obligations.ShiftsMoveOneBitIntoTheFlag
  intro s x y
  refine ⟨?shr, ?shl⟩
  case shr =>
    obtain ⟨t, hnext, hshift, hflag, hframe⟩ := exec_writes_register_and_flag (i := .shr x y) (s := s) rfl
    refine ⟨t, hnext, fun hx => ?_, hflag ▸ lowBitFlag_toNat _, hframe⟩
    rw [hshift hx, shiftRight_toNat]
  case shl =>
    obtain ⟨t, hnext, hshift, hflag, hframe⟩ := exec_writes_register_and_flag (i := .shl x y) (s := s) rfl
    refine ⟨t, hnext, fun hx => ?_, hflag ▸ highBitFlag_toNat _, hframe⟩
    rw [hshift hx, shiftLeft_toNat, Nat.mul_comm]

/-! ### The index register -/

/-- Settles O37: five times a byte does not wrap in 16 bits. -/
theorem glyphIndexIsFiveTimesTheValue : Obligations.GlyphIndexIsFiveTimesTheValue := by
  unfold Obligations.GlyphIndexIsFiveTimesTheValue
  intro s x
  exact ⟨_, rfl, (glyphAddress_toNat _).trans (Nat.mul_comm _ _), rfl, sameBut_setIndex_advance s _⟩

/-- Settles O38: the sum and the flag are computed from the old I and Vx. -/
theorem addIndexNeverFaultsAndFlagsOverflow : Obligations.AddIndexNeverFaultsAndFlagsOverflow := by
  unfold Obligations.AddIndexNeverFaultsAndFlagsOverflow
  intro s x
  have hflag := reg_setReg_advance_same { s with i := indexSum s.i (s.reg x) } Reg.flag (indexOverflowFlag s.i (s.reg x))
  exact ⟨_, rfl, indexSum_toNat _ _, hflag.trans (flagByte_decide _), rfl,
    registersBut_setReg_advance { s with i := _ } Reg.flag _, sameBut_index_registers s _ _ _⟩

end Sys2Proof.Machine
end

section
/-! The instructions that reach memory (43_index_memory.md, R173 to R178): the digits, the block store and the block load,
and the fetch after a store. -/

namespace Sys2Proof.Machine

/-! ### The range check -/

theorem exec_of_range_inside {i : Instr} {s : State} {len : Nat} (hfault : faultOf i s = rangeFault s.i len)
    (h : len = 0 ∨ s.i.toNat + len ≤ 0x1000) : exec i s = .next (completed i s) :=
  (exec_eq i s).trans (congrArg _ (executed_of_no_fault (hfault.trans (rangeFault_inside h))))

theorem exec_of_range_outside {i : Instr} {s : State} {len : Nat} (hfault : faultOf i s = rangeFault s.i len)
    (h : ¬(len = 0 ∨ s.i.toNat + len ≤ 0x1000)) :
    exec i s = .next { s with halt := some {
      pc := s.pc, cause := .memoryOutOfBounds (BitVec.ofNat 16 (max s.i.toNat 0x1000)) } } := by
  rw [exec_eq, executed_of_fault (hfault.trans (rangeFault_outside h)), firstOutside_eq]
  rfl

/-! ### Stores and loads -/

theorem bcdDigits_toNat (a : Byte) :
    (bcdDigits a).map BitVec.toNat = [a.toNat / 100, a.toNat / 10 % 10, a.toNat % 10] := by
  simp [bcdDigits]

/-- Settles O39: the block written is `bcdDigits`, three bytes from I on. -/
theorem storeBcdWritesThreeDigits : Obligations.StoreBcdWritesThreeDigits := by
  unfold Obligations.StoreBcdWritesThreeDigits
  intro s x
  refine ⟨fun hrange => ?_, fun hout => exec_of_range_outside (len := 3) rfl (by omega)⟩
  have hread (k : Nat) (hk : k < 3) : Memory.read (completed (.ldB x) s).mem (s.i.toNat + k) =
      (bcdDigits (s.reg x)).getD k 0 := Memory.read_writeBlock_inside hk s.mem s.i.toNat
  have hdigits := bcdDigits_toNat (s.reg x)
  simp only [bcdDigits, List.map_cons, List.map_nil, List.cons.injEq, and_true] at hdigits
  obtain ⟨hhundreds, htens, hunits⟩ := hdigits
  refine ⟨_, exec_of_range_inside (len := 3) rfl (.inr (Nat.succ_le_succ hrange)), ?_, ?_, ?_, fun a ha => ?_, rfl,
    sameBut_memory s _ _, rfl⟩
  · exact (congrArg BitVec.toNat (hread 0 (by decide))).trans hhundreds
  · exact (congrArg BitVec.toNat (hread 1 (by decide))).trans htens
  · exact (congrArg BitVec.toNat (hread 2 (by decide))).trans hunits
  · exact Memory.read_writeBlock_outside (by rw [length_bcdDigits]; omega) s.mem

/-- Settles O40: the block written is V0 to Vx, from I on. -/
theorem writeBlockCopiesThroughVx : Obligations.WriteBlockCopiesThroughVx := by
  unfold Obligations.WriteBlockCopiesThroughVx
  intro s x
  refine ⟨fun hrange => ?_, fun hout => exec_of_range_outside (len := x.val + 1) rfl (by omega)⟩
  refine ⟨_, exec_of_range_inside (len := x.val + 1) rfl (.inr (Nat.succ_le_succ hrange)), fun r hr => ?_, fun a ha => ?_, rfl,
    sameBut_memory s _ _, rfl⟩
  · have hlt : r.val < (s.regsThrough x).length := by
      rw [length_regsThrough]
      exact Nat.lt_succ_of_le hr
    exact (Memory.read_writeBlock_inside hlt s.mem _).trans (getD_regsThrough s x r.val hr)
  · exact Memory.read_writeBlock_outside (by rw [length_regsThrough]; omega) s.mem

/-- A block load puts the byte at I + r into Vr, up to Vx (R178). -/
theorem reg_loadRegs_through (s : State) {x r : Reg} (h : r ≤ x) :
    (completed (.ldVMem x) s).reg r = Memory.read s.mem (s.i.toNat + r.val) := by
  have hlt : r.val < (Memory.readBlock s.mem s.i.toNat (x.val + 1)).length := by
    rw [Memory.length_readBlock]
    exact Nat.lt_succ_of_le h
  have hin : 0 ≤ r.val ∧ r.val < 0 + (Memory.readBlock s.mem s.i.toNat (x.val + 1)).length := by omega
  calc (completed (.ldVMem x) s).reg r
      = (Memory.readBlock s.mem s.i.toNat (x.val + 1)).getD r.val 0 :=
        (getElem_loadRegs _ s.v 0 r.val r.isLt).trans (if_pos hin)
    _ = Memory.read s.mem (s.i.toNat + r.val) :=
        (List.getD_eq_getElem _ _ hlt).trans (Memory.getElem_readBlock _ _ _ _ hlt)

/-- Settles O41: the registers loaded are V0 to Vx, and the load keeps those above Vx. -/
theorem readBlockCopiesThroughVx : Obligations.ReadBlockCopiesThroughVx := by
  unfold Obligations.ReadBlockCopiesThroughVx
  intro s x
  refine ⟨fun hrange => ?_, fun hout => exec_of_range_outside (len := x.val + 1) rfl (by omega)⟩
  exact ⟨_, exec_of_range_inside (len := x.val + 1) rfl (.inr (Nat.succ_le_succ hrange)), fun _ => reg_loadRegs_through s,
    fun _ => reg_loadRegs_above s, rfl, sameBut_registers s _ _, rfl⟩

/-! ### A fetch after a store -/

theorem fetch_congr {s t : State} {p : Word} (hlow : Memory.read t.mem p.toNat = Memory.read s.mem p.toNat)
    (hhigh : Memory.read t.mem (p.toNat + 1) = Memory.read s.mem (p.toNat + 1)) :
    fetch { t with pc := p } = fetch { s with pc := p } := by
  simp only [fetch, hlow, hhigh]

/-- Settles O42: a fetch reads two bytes, each as the store has left it. -/
theorem fetchSeesTheBlockWritten : Obligations.FetchSeesTheBlockWritten := by
  unfold Obligations.FetchSeesTheBlockWritten
  intro s t x hrange hstore
  obtain ⟨t', hstore', hinside, houtside, -⟩ := (writeBlockCopiesThroughVx s x).1 hrange
  obtain rfl : t = t' := Host.Outcome.next.inj (hstore.symm.trans hstore')
  refine ⟨fun r r' p hnext hr' hp => ?_, fun p hp => ?_⟩
  · have hx : r'.val ≤ x.val := hr'
    have hr : r.val ≤ x.val := by omega
    have hpc : p.toNat ≤ 0xFFE := by omega
    have hlow : Memory.read t.mem p.toNat = s.reg r := hp ▸ hinside r hr
    have hhigh : Memory.read t.mem (p.toNat + 1) = s.reg r' := by
      rw [← hinside r' hr']
      congr 1
      omega
    refine ⟨_, fetch_inside (s := { t with pc := p }) hpc, ?_⟩
    rw [wordOfBytes_toNat, hlow, hhigh]
  · exact fetch_congr (houtside _ (by omega)) (houtside _ (by omega))

end Sys2Proof.Machine
end

section
/-! Drawing a sprite (44_display.md, R191 to R197). -/

namespace Sys2Proof.Machine

/-! ### The sprite on the grid -/

theorem rowsBit_readBlock (s : State) (x y : Reg) (n : Fin 16) (X Y : Nat) :
    rowsBit (Memory.readBlock s.mem s.i.toNat n.val) (s.reg x).toNat (s.reg y).toNat X Y = spriteBit s x y n X Y := by
  rw [rowsBit, spriteBit, Memory.length_readBlock]
  by_cases hrow : Y - (s.reg y).toNat < n.val
  · rw [List.getD_eq_getElem _ _ (by rwa [Memory.length_readBlock]), Memory.getElem_readBlock]
  · have hout : ¬((s.reg x).toNat ≤ X ∧ X < (s.reg x).toNat + 8 ∧ (s.reg y).toNat ≤ Y ∧
        Y < (s.reg y).toNat + n.val) := by omega
    rw [decide_eq_false hout, Bool.false_and, Bool.false_and]

theorem composite_pixel (s : State) (x y : Reg) (n : Fin 16) {X Y : Nat} (hX : X < 64) (hY : Y < 32) :
    Display.pixel (composite s x y n).disp X Y = (Display.pixel s.disp X Y ^^ spriteBit s x y n X Y) := by
  rw [composite, drawRows_pixel _ _ _ _ _ _ hX hY, rowsBit_readBlock]

theorem composite_collision_iff (s : State) (x y : Reg) (n : Fin 16) :
    (composite s x y n).collision = true ↔
      ∃ X Y, X < 64 ∧ Y < 32 ∧ spriteBit s x y n X Y = true ∧ Display.pixel s.disp X Y = true := by
  simp only [composite, drawRows_collision, rowsBit_readBlock, Bool.false_eq_true, false_or]

/-- VF after a draw is the collision flag. -/
theorem reg_flag_drw (s : State) (x y : Reg) (n : Fin 16) :
    (completed (.drw x y n) s).reg 0xF = collisionFlag (composite s x y n).collision :=
  reg_setReg_advance_same { s with disp := (composite s x y n).disp } Reg.flag _

/-- Settles O44: the composite XORs the sprite's bits onto the cells, and its collision is the flag. -/
theorem drawXorsTheSpriteAndReportsCollision : Obligations.DrawXorsTheSpriteAndReportsCollision := by
  unfold Obligations.DrawXorsTheSpriteAndReportsCollision
  intro s x y n
  refine ⟨fun hrange => ?_, fun hout => exec_of_range_outside (len := n.val) rfl hout⟩
  refine ⟨_, exec_of_range_inside (len := n.val) rfl hrange, fun X Y => composite_pixel s x y n, fun hhit => ?_,
    fun hmiss => ?_, rfl, registersBut_setReg_advance { s with disp := _ } Reg.flag _,
    sameBut_registers_display s _ _ _⟩
  · rw [reg_flag_drw]
    exact (flagByte_eq_one _).mpr ((composite_collision_iff s x y n).mpr hhit)
  · rw [reg_flag_drw]
    refine (flagByte_eq_zero _).mpr (Bool.eq_false_iff.mpr fun hhit => ?_)
    obtain ⟨X, Y, hX, hY, hbit, hset⟩ := (composite_collision_iff s x y n).mp hhit
    exact nomatch hset.symm.trans (hmiss X Y hX hY hbit)

/-- Settles O45: with no rows the composite is the display itself, without a collision. -/
theorem drawOfNoRowsOnlyClearsVf : Obligations.DrawOfNoRowsOnlyClearsVf := by
  unfold Obligations.DrawOfNoRowsOnlyClearsVf
  intro s x y
  exact ⟨_, exec_of_range_inside (i := .drw x y 0) (len := 0) rfl (.inl rfl), reg_flag_drw s x y 0, rfl,
    registersBut_setReg_advance s Reg.flag _, sameBut_registers s _ _⟩

/-! ### Two draws -/

/-- The sprite is the same from a state that keeps I, the coordinates and the sprite's bytes. -/
theorem spriteBit_congr {s t : State} {x y : Reg} {n : Fin 16} (hi : t.i = s.i) (hx : t.reg x = s.reg x)
    (hy : t.reg y = s.reg y)
    (hbytes : ∀ k, k < n.val → Memory.read t.mem (s.i.toNat + k) = Memory.read s.mem (s.i.toNat + k)) (X Y : Nat) :
    spriteBit t x y n X Y = spriteBit s x y n X Y := by
  rw [spriteBit, spriteBit, hi, hx, hy]
  by_cases hrow : Y - (s.reg y).toNat < n.val
  · rw [hbytes _ hrow]
  · have hout : ¬((s.reg x).toNat ≤ X ∧ X < (s.reg x).toNat + 8 ∧ (s.reg y).toNat ≤ Y ∧
        Y < (s.reg y).toNat + n.val) := by omega
    rw [decide_eq_false hout, Bool.false_and, Bool.false_and]

/-- Settles O46: the second XOR with the same bit undoes the first, and finds a set bit's cell at 1 iff the first found
it at 0. -/
theorem drawingTwiceRestoresTheDisplay : Obligations.DrawingTwiceRestoresTheDisplay := by
  unfold Obligations.DrawingTwiceRestoresTheDisplay
  intro s t t' u x y n hrange hfirst hdisp hi hx hy hbytes hsecond
  have hsprite := spriteBit_congr hi hx hy hbytes
  obtain ⟨t₁, hfirst', hpixel, -⟩ := (drawXorsTheSpriteAndReportsCollision s x y n).1 hrange
  obtain rfl : t = t₁ := Host.Outcome.next.inj (hfirst.symm.trans hfirst')
  obtain ⟨u₁, hsecond', hpixel', hhit, hmiss, -⟩ := (drawXorsTheSpriteAndReportsCollision t' x y n).1 (hi ▸ hrange)
  obtain rfl : u = u₁ := Host.Outcome.next.inj (hsecond.symm.trans hsecond')
  refine ⟨display_ext fun X Y hX hY => ?_, fun ⟨X, Y, hX, hY, hbit, hclear⟩ => hhit ⟨X, Y, hX, hY, ?_, ?_⟩,
    fun hset => hmiss fun X Y hX hY hbit => ?_⟩
  · rw [hpixel' X Y hX hY, hdisp, hpixel X Y hX hY, hsprite, Bool.xor_assoc, Bool.xor_self, Bool.xor_false]
  · rw [hsprite, hbit]
  · rw [hdisp, hpixel X Y hX hY, hbit, hclear]
    rfl
  · rw [hsprite] at hbit
    rw [hdisp, hpixel X Y hX hY, hbit, hset X Y hX hY hbit]
    rfl

end Sys2Proof.Machine
end
